-- ==== Sys2Proof/Word.lean ====
section
/-! DEFINITION. The widths of HexaVM CORE: bytes, 16-bit words and 16-bit addresses (00_scope R6 `XLEN`,
`ALEN`, R7). -/

namespace Sys2Proof

/-- An 8-bit value: an opcode, a register letter, a byte operand, a byte of memory (R7). -/
abbrev Byte := BitVec 8

/-- A 16-bit value: a register, a stack entry, an immediate (R6 `XLEN`, R7). -/
abbrev Word := BitVec 16

/-- A 16-bit byte address (R6 `ALEN`, R23). -/
abbrev Addr := BitVec 16

end Sys2Proof
end

