-- ==== Sys2Proof/Config.lean ====
section
/-! DEFINITION. What the hardware fixes or leaves to a parameter: the three registers, the forty-one mnemonics,
the sizes and host defaults of 00_scope R6, the values its behaviour parameters may take (the values chosen
stand in Machine/Params.lean), and the free values of the signed reading. -/

namespace Sys2Proof

/-- The three general registers (R20). -/
inductive Reg where
  | a | b | c
  deriving DecidableEq, Repr

/-- A register-letter operand as `FetchReg` answers it (R9): a register, or `bad(k)` for a byte that names none. -/
inductive RegOperand where
  | reg (r : Reg)
  | bad (k : Byte)
  deriving DecidableEq, Repr

/-- The mnemonics of the opcode map, in opcode order (R97). -/
inductive Mnemonic where
  | nop | halt | add | sub | mul | div | mod | cmp | inc
  | lda | ldb | ldc | movRegReg | movRegImm
  | load | store | loadA | storeA | load8A | store8A | movRegMem | movRegMem2 | movMemReg | movMemImm | mov8MemImm
  | jmp | jz | jnz | jn | jp | jeq | jgt | jlt | call | ret
  | push | pop
  | wait | int | syscall | printa
  deriving DecidableEq, Repr

/-- `NUMERICS`: how `div`, `mod`, `<` and `>` read a register value (R6, R122). -/
inductive Numerics where
  | unsigned | signed
  deriving DecidableEq, Repr

/-- `JP_COND`: the condition of `jp` (R6, R174). -/
inductive JpCond where
  | negativeClear | negativeAndZeroClear
  deriving DecidableEq, Repr

/-- `DATA_ENDIAN`: the byte order of 16-bit data accesses (R6, R53). -/
inductive Endian where
  | big | little
  deriving DecidableEq, Repr

/-- `MOV_REG_IMM_FORMAT`: the bytes the engine consumes for `mov_reg_imm` (R6, R144; D5): letter, address and immediate,
or letter and immediate. -/
inductive MovRegImmFormat where
  | frai | fourByte
  deriving DecidableEq, Repr

/-- `MOV_REG_MEM2`: the data effect of `mov_reg_mem2` (R6, R158; D13). -/
inductive MovRegMem2 where
  | asMovRegMem | refuse
  deriving DecidableEq, Repr

/-- `MEM_SIZE`: addresses 0 to `memSize - 1` exist (R6, R50). -/
def Config.memSize : Nat := 65536

/-- `ORIGIN`'s default, the assembler's first cursor value (R6, R58). -/
def Config.origin : Addr := 0x9000

/-- `INSTR_BASE`'s default, what Reset loads into `pc` (R6, R33; DESIGN CHOICE, entry 7). -/
def Config.instrBase : Addr := 0x9000

/-- Free value: the signed quotient where an operand is negative, which R123 leaves unspecified. Reached only under
`NUMERICS = signed`, which is not the default (entry 10). -/
opaque Config.signedQuotient : Word → Word → Word

/-- Free value: the signed remainder, as `Config.signedQuotient` (entry 10). -/
opaque Config.signedRemainder : Word → Word → Word

/-- Free value: the text of a negative number, for which the spec gives no rendering; reached as
`Config.signedQuotient` is (R35, R122; entry 10). -/
opaque Config.signedText : Word → List Char

end Sys2Proof
end

