-- ==== Sys2Proof/Machine/Params.lean ====
section
/-! DEFINITION. The values of the parameters of 00_scope R6, each the default of the decision of
92_eei_decisions.md it names. `OPC` and `LEN` stand in Decode.lean, `SIZE` in Machine/Resolver.lean. -/

namespace Sys2Proof.Machine

/-- `REGCODE` (R6, R95; the ASCII codes are PRESUMED by the spec itself, G1; D2, entry 3). -/
def Params.regCode : Reg → Byte
  | .a => 0x61
  | .b => 0x62
  | .c => 0x63

/-- The register a letter byte names, if any: exactly the three letters (R95). -/
def Params.regOfCode (k : Byte) : Option Reg :=
  [Reg.a, .b, .c].find? (fun r => Params.regCode r == k)

/-- `STACK_DEPTH`: unbounded (R6, R29; D18, entry 21). -/
def Params.stackDepth : Option Nat := none

/-- `NUMERICS` (R6, R122; D7, entry 10). -/
def Params.numerics : Numerics := .unsigned

/-- `MOV_REG_IMM_FORMAT` (R6, R144; D5, entry 16). -/
def Params.movRegImmFormat : MovRegImmFormat := .frai

/-- `MOV_REG_MEM2` (R6, R158; D13, entry 17). -/
def Params.movRegMem2 : MovRegMem2 := .asMovRegMem

/-- `JP_COND` (R6, R174; D15, entry 19). -/
def Params.jpCond : JpCond := .negativeClear

/-- `DATA_ENDIAN` (R6, R53; D10, entry 13). -/
def Params.dataEndian : Endian := .big

/-- `SYS_NOP` (R6, R201; D19, entry 23). -/
def Params.sysNop : Word := 0x0000

/-- `SYS_WAIT`, the one call number the source gives (R6, R201). -/
def Params.sysWait : Word := 0x0001

/-- `SYS_PRINTNUM` (R6, R201; D19, entry 23). -/
def Params.sysPrintNum : Word := 0x0002

/-- `SYS_PRINTCHAR` (R6, R201; D19, entry 23). -/
def Params.sysPrintChar : Word := 0x0003

/-- `SYS_EXIT` (R6, R201; D19, entry 23). -/
def Params.sysExit : Word := 0x0004

/-- `INT_PRINT` (R6, R201; D20, entry 24). -/
def Params.intPrint : Byte := 0x11

/-- `INT_WAIT`, the one interrupt number the source gives (R6, R201). -/
def Params.intWait : Byte := 0x12

/-- `INT_RESET` (R6, R201; D20, entry 24). -/
def Params.intReset : Byte := 0x13

/-- `INT_PRINT_SRC` (R6, R198; D20, entry 24). -/
def Params.intPrintSrc : Reg := .a

/-- `INT_RESET_CONTINUES` (R6, R198; D20, entry 24). -/
def Params.intResetContinues : Bool := false

/-- `SIZE_MOV_REG_IMM`: the defect of pass 1's size table, kept (R6, R223; D6, entry 31). -/
def Params.sizeMovRegImm : Nat := 4

end Sys2Proof.Machine
end

