-- ==== Sys2Proof/Syntax.lean ====
section
/-! DEFINITION. The instructions, one constructor per row of spec/opcode_table.json, operands in encoding order
(30_encoding R80 to R91, R97). -/

namespace Sys2Proof

/-- One instruction with its operands. A register letter stays a `RegOperand`, since a letter that names no
register is fetched like any other and faults only when the instruction runs (R95, R96). -/
inductive Instr where
  | nop
  | halt
  | add
  | sub
  | mul
  | div
  | mod
  | cmp
  | inc (r : RegOperand)
  | lda (imm : Word)
  | ldb (imm : Word)
  | ldc (imm : Word)
  | movRegReg (dst src : RegOperand)
  | movRegImm (r : RegOperand) (addr : Addr) (imm : Word)
  | load (addr : Addr) (r : RegOperand)
  | store (addr : Addr) (r : RegOperand)
  | loadA (addr : Addr)
  | storeA (addr : Addr)
  | load8A (addr : Addr)
  | store8A (addr : Addr)
  | movRegMem (r : RegOperand) (addr : Addr)
  | movRegMem2 (r : RegOperand) (addr : Addr)
  | movMemReg (addr : Addr) (r : RegOperand)
  | movMemImm (addr : Addr) (imm : Word)
  | mov8MemImm (addr : Addr) (imm : Byte)
  | jmp (addr : Addr)
  | jz (addr : Addr)
  | jnz (addr : Addr)
  | jn (addr : Addr)
  | jp (addr : Addr)
  | jeq (addr : Addr)
  | jgt (addr : Addr)
  | jlt (addr : Addr)
  | call (addr : Addr)
  | ret
  | push (r : RegOperand)
  | pop (r : RegOperand)
  | wait (v : Byte)
  | int (v : Byte)
  | syscall
  | printa
  deriving DecidableEq, Repr

end Sys2Proof
end

