-- ==== Sys2Proof/Decode.lean ====
section
/-! DEFINITION. Lengths, the opcode map, the decoder, the encoder and the host's word form of the decoder
(30_encoding R80 to R101). The first byte alone fixes format and length (R80, R101). -/

namespace Sys2Proof

/-- `v[15:8]` (R7). -/
def hi8 (v : Word) : Byte := v.extractLsb' 8 8

/-- `v[7:0]` (R7). -/
def lo8 (v : Word) : Byte := v.extractLsb' 0 8

/-- `{h, l}`: `h` is the most significant byte (R7, R93, R94). -/
def joinBytes (h l : Byte) : Word := h ++ l

/-- `LEN` (R6, R92): the encoded length in bytes, by format. -/
def Mnemonic.len : Mnemonic → Nat
  | .nop | .halt | .add | .sub | .mul | .div | .mod | .cmp | .ret | .syscall | .printa => 1
  | .inc | .push | .pop | .wait | .int => 2
  | .lda | .ldb | .ldc | .movRegReg | .loadA | .storeA | .load8A | .store8A => 3
  | .jmp | .jz | .jnz | .jn | .jp | .jeq | .jgt | .jlt | .call => 3
  | .load | .store | .movRegMem | .movRegMem2 | .movMemReg | .mov8MemImm => 4
  | .movMemImm => 5
  | .movRegImm => 6

/-- `OPC` (R97; the byte values are decision D1, entry 2). -/
def Mnemonic.opcode : Mnemonic → Byte
  | .nop => 0x00 | .halt => 0x01 | .add => 0x02 | .sub => 0x03 | .mul => 0x04 | .div => 0x05
  | .mod => 0x06 | .cmp => 0x07 | .inc => 0x08
  | .lda => 0x09 | .ldb => 0x0A | .ldc => 0x0B | .movRegReg => 0x0C | .movRegImm => 0x0D
  | .load => 0x0E | .store => 0x0F | .loadA => 0x10 | .storeA => 0x11 | .load8A => 0x12
  | .store8A => 0x13 | .movRegMem => 0x14 | .movRegMem2 => 0x15 | .movMemReg => 0x16
  | .movMemImm => 0x17 | .mov8MemImm => 0x18
  | .jmp => 0x19 | .jz => 0x1A | .jnz => 0x1B | .jn => 0x1C | .jp => 0x1D | .jeq => 0x1E
  | .jgt => 0x1F | .jlt => 0x20 | .call => 0x21 | .ret => 0x22
  | .push => 0x23 | .pop => 0x24
  | .wait => 0x25 | .int => 0x26 | .syscall => 0x27 | .printa => 0x28

/-- Every mnemonic, in opcode order (R97; the closure of the set is decision D3, entry 22). -/
def Mnemonic.all : List Mnemonic :=
  [.nop, .halt, .add, .sub, .mul, .div, .mod, .cmp, .inc, .lda, .ldb, .ldc, .movRegReg, .movRegImm,
   .load, .store, .loadA, .storeA, .load8A, .store8A, .movRegMem, .movRegMem2, .movMemReg, .movMemImm,
   .mov8MemImm, .jmp, .jz, .jnz, .jn, .jp, .jeq, .jgt, .jlt, .call, .ret, .push, .pop,
   .wait, .int, .syscall, .printa]

/-- The mnemonic an opcode byte selects; none for an illegal byte (R98). -/
def Mnemonic.ofOpcode (k : Byte) : Option Mnemonic :=
  Mnemonic.all.find? (fun m => m.opcode == k)

/-- The mnemonic of an instruction. -/
def Instr.mnemonic : Instr → Mnemonic
  | .nop => .nop | .halt => .halt | .add => .add | .sub => .sub | .mul => .mul | .div => .div
  | .mod => .mod | .cmp => .cmp | .inc _ => .inc
  | .lda _ => .lda | .ldb _ => .ldb | .ldc _ => .ldc
  | .movRegReg _ _ => .movRegReg | .movRegImm _ _ _ => .movRegImm
  | .load _ _ => .load | .store _ _ => .store | .loadA _ => .loadA | .storeA _ => .storeA
  | .load8A _ => .load8A | .store8A _ => .store8A
  | .movRegMem _ _ => .movRegMem | .movRegMem2 _ _ => .movRegMem2 | .movMemReg _ _ => .movMemReg
  | .movMemImm _ _ => .movMemImm | .mov8MemImm _ _ => .mov8MemImm
  | .jmp _ => .jmp | .jz _ => .jz | .jnz _ => .jnz | .jn _ => .jn | .jp _ => .jp
  | .jeq _ => .jeq | .jgt _ => .jgt | .jlt _ => .jlt | .call _ => .call | .ret => .ret
  | .push _ => .push | .pop _ => .pop
  | .wait _ => .wait | .int _ => .int | .syscall => .syscall | .printa => .printa

/-- The six bytes from an opcode byte on: as many as the longest instruction has (R80, R91). -/
structure CodeWindow where
  b0 : Byte
  b1 : Byte
  b2 : Byte
  b3 : Byte
  b4 : Byte
  b5 : Byte
  deriving DecidableEq, Repr

/-- The window's bytes in address order. -/
def CodeWindow.bytes (w : CodeWindow) : List Byte := [w.b0, w.b1, w.b2, w.b3, w.b4, w.b5]

/-- A list's first six bytes as a window; what the list lacks is 0. -/
def CodeWindow.ofBytes (l : List Byte) : CodeWindow :=
  ⟨l.getD 0 0, l.getD 1 0, l.getD 2 0, l.getD 3 0, l.getD 4 0, l.getD 5 0⟩

/-- Why bytes are no instruction. -/
inductive DecodeError where
  /-- The first byte is not in the opcode map (R98). Safe: the step turns it into the fault of R251. -/
  | unknownOpcode (k : Byte)
  deriving DecidableEq, Repr

/-- `FetchReg` on a byte already read (R9, R95). -/
def decodeReg (k : Byte) : RegOperand :=
  match Machine.Params.regOfCode k with
  | some r => .reg r
  | none => .bad k

/-- The operands of each mnemonic's format, in encoding order (R81 to R91). -/
def decodeOperands (m : Mnemonic) (w : CodeWindow) : Instr :=
  match m with
  | .nop => .nop
  | .halt => .halt
  | .add => .add
  | .sub => .sub
  | .mul => .mul
  | .div => .div
  | .mod => .mod
  | .cmp => .cmp
  | .inc => .inc (decodeReg w.b1)
  | .lda => .lda (joinBytes w.b1 w.b2)
  | .ldb => .ldb (joinBytes w.b1 w.b2)
  | .ldc => .ldc (joinBytes w.b1 w.b2)
  | .movRegReg => .movRegReg (decodeReg w.b1) (decodeReg w.b2)
  | .movRegImm => .movRegImm (decodeReg w.b1) (joinBytes w.b2 w.b3) (joinBytes w.b4 w.b5)
  | .load => .load (joinBytes w.b1 w.b2) (decodeReg w.b3)
  | .store => .store (joinBytes w.b1 w.b2) (decodeReg w.b3)
  | .loadA => .loadA (joinBytes w.b1 w.b2)
  | .storeA => .storeA (joinBytes w.b1 w.b2)
  | .load8A => .load8A (joinBytes w.b1 w.b2)
  | .store8A => .store8A (joinBytes w.b1 w.b2)
  | .movRegMem => .movRegMem (decodeReg w.b1) (joinBytes w.b2 w.b3)
  | .movRegMem2 => .movRegMem2 (decodeReg w.b1) (joinBytes w.b2 w.b3)
  | .movMemReg => .movMemReg (joinBytes w.b1 w.b2) (decodeReg w.b3)
  | .movMemImm => .movMemImm (joinBytes w.b1 w.b2) (joinBytes w.b3 w.b4)
  | .mov8MemImm => .mov8MemImm (joinBytes w.b1 w.b2) w.b3
  | .jmp => .jmp (joinBytes w.b1 w.b2)
  | .jz => .jz (joinBytes w.b1 w.b2)
  | .jnz => .jnz (joinBytes w.b1 w.b2)
  | .jn => .jn (joinBytes w.b1 w.b2)
  | .jp => .jp (joinBytes w.b1 w.b2)
  | .jeq => .jeq (joinBytes w.b1 w.b2)
  | .jgt => .jgt (joinBytes w.b1 w.b2)
  | .jlt => .jlt (joinBytes w.b1 w.b2)
  | .call => .call (joinBytes w.b1 w.b2)
  | .ret => .ret
  | .push => .push (decodeReg w.b1)
  | .pop => .pop (decodeReg w.b1)
  | .wait => .wait w.b1
  | .int => .int w.b1
  | .syscall => .syscall
  | .printa => .printa

/-- The decoder, total on any bytes: the instruction, or the illegal opcode byte by name (R97, R98). -/
def decode (w : CodeWindow) : Except DecodeError Instr :=
  match Mnemonic.ofOpcode w.b0 with
  | some m => .ok (decodeOperands m w)
  | none => .error (.unknownOpcode w.b0)

/-- The letter byte of a register operand (R95, R109). -/
def encodeReg : RegOperand → Byte
  | .reg r => Machine.Params.regCode r
  | .bad k => k

/-- A 16-bit operand in the instruction stream, high byte first (R52, R109). -/
def encodeWord (v : Word) : List Byte := [hi8 v, lo8 v]

/-- The operand bytes of an instruction, in encoding order (R81 to R91, R109). -/
def encodeOperands : Instr → List Byte
  | .nop | .halt | .add | .sub | .mul | .div | .mod | .cmp | .ret | .syscall | .printa => []
  | .inc r | .push r | .pop r => [encodeReg r]
  | .wait v | .int v => [v]
  | .lda v | .ldb v | .ldc v => encodeWord v
  | .movRegReg d s => [encodeReg d, encodeReg s]
  | .movRegImm r a v => encodeReg r :: (encodeWord a ++ encodeWord v)
  | .load a r | .store a r | .movMemReg a r => encodeWord a ++ [encodeReg r]
  | .loadA a | .storeA a | .load8A a | .store8A a => encodeWord a
  | .movRegMem r a | .movRegMem2 r a => encodeReg r :: encodeWord a
  | .movMemImm a v => encodeWord a ++ encodeWord v
  | .mov8MemImm a v => encodeWord a ++ [v]
  | .jmp a | .jz a | .jnz a | .jn a | .jp a | .jeq a | .jgt a | .jlt a | .call a => encodeWord a

/-- The bytes of an instruction in address order: opcode, then operands (R80, R109). -/
def encode (i : Instr) : List Byte := i.mnemonic.opcode :: encodeOperands i

/-- Byte `k` of an instruction numbered as spec/opcode_table.json numbers its bits: byte 0 is bits 7 to 0. -/
def tableByte (nbits w k : Nat) : Byte := BitVec.ofNat 8 ((w % 2 ^ nbits) / 2 ^ (8 * k))

/-- The six bytes of a table word; bits from `nbits` up are 0. -/
def CodeWindow.ofTableWord (nbits w : Nat) : CodeWindow :=
  ⟨tableByte nbits w 0, tableByte nbits w 1, tableByte nbits w 2,
   tableByte nbits w 3, tableByte nbits w 4, tableByte nbits w 5⟩

/-- The instruction the decoder reads from a table word; none where it refuses. -/
def decodeTableWord (nbits w : Nat) : Option Instr :=
  match decode (CodeWindow.ofTableWord nbits w) with
  | .ok i => some i
  | .error _ => none

end Sys2Proof
end

