-- ==== Sys2Proof/Machine/State.lean ====
section
/-! DEFINITION. The state of the machine (10_state R20 to R36), the reasons a step can stop, and the state right
after Reset on zero-filled memory (70_reset R280, R284). -/

namespace Sys2Proof.Machine

/-- Memory as its listed bytes: addresses strictly rising, none listed whose byte is 0x00, which is what an
unlisted address reads as (20_memory R50, R59; entry 6). -/
abbrev Memory := List Host.Cell

/-- An event of the output trace (R12, R35). -/
inductive OutEvent where
  /-- A 16-bit value printed as a number. -/
  | num (v : Word)
  /-- A byte printed as a character. -/
  | chr (v : Byte)
  deriving DecidableEq, Repr

/-- What a fault records: the offending byte, number or value, and the opcode byte's address (R32, R250). -/
inductive FaultRecord where
  | unknownOpcode (byte : Byte) (addr : Addr)
  | unknownRegister (byte : Byte) (addr : Addr)
  | unknownSyscall (number : Word) (addr : Addr)
  | unknownInterrupt (number : Byte) (addr : Addr)
  | stackOverflow (value : Word) (addr : Addr)
  deriving DecidableEq, Repr

/-- The run status (R30). -/
inductive Status where
  | running
  | halted
  | faulted (r : FaultRecord)
  deriving DecidableEq, Repr

/-- The whole state: the tuple of 10_state (pc, A, B, C, Z, N, stack, status, mem, out), the latched `instr_base`
(R33), and `delays`, the model's own record of delay requests (R12, R36; entry 8). -/
structure State where
  pc : Addr
  a : Word
  b : Word
  c : Word
  /-- The zero flag. -/
  z : Bool
  /-- The negative flag. -/
  n : Bool
  /-- The stack; its last element is the top (R8). -/
  stack : List Word
  status : Status
  mem : Memory
  out : List OutEvent
  instrBase : Addr
  /-- The delay requests issued so far, oldest first; nothing in the machine reads it. -/
  delays : List Nat
  deriving DecidableEq, Repr

/-- Why the model gives no next state. The five faults of 60_exceptions R250 are not here: they are the state
`status = faulted …`, which a step answers as a next state. -/
inductive Fault where
  /-- Raised by `step` when `status` is not `Running`: the hardware takes no step then (R37). Safe (entry 5). -/
  | engineStopped
  deriving DecidableEq, Repr

/-- Why the model refuses an instruction. -/
inductive Refusal where
  /-- Raised by an arm of `exec` whose instruction has no meaning yet; no arm does. Safe. -/
  | notModelled (mnemonic : String)
  /-- Raised by `mov_reg_mem2` with a register letter under `MOV_REG_MEM2 = refuse`, which is not the value chosen, so
  no step answers it (R158; D13, entry 17). Safe. -/
  | movRegMem2Effect
  deriving DecidableEq, Repr

/-- What one step answers. -/
abbrev Result := Host.Outcome State Fault Refusal

/-- The state right after Reset with the default `instr_base`, on memory the host has zero-filled and put no image
into (R280 to R285; entries 6 and 7). -/
def State.reset : State where
  pc := Config.instrBase
  a := 0
  b := 0
  c := 0
  z := false
  n := false
  stack := []
  status := .running
  mem := []
  out := []
  instrBase := Config.instrBase
  delays := []

end Sys2Proof.Machine
end

