-- ==== Sys2Proof/Machine/Ops.lean ====
section
/-! DEFINITION. The named operations over memory, registers, the stack, the outputs and the status (00_scope R8 to
R13), fetching (R9, R25), taking a fault (60_exceptions R257, R259), and the two resets (70_reset R280, R283). A
fault has no return: only Reset leaves it (R260). -/

namespace Sys2Proof.Machine

/-! ## Memory (20_memory R50 to R57) -/

/-- Put a cell in front, unless its byte is what an unlisted address reads as. -/
def Memory.cons (x : Nat) (v : Byte) (m : Memory) : Memory :=
  if v = 0 then m else (x, v) :: m

/-- Read one byte; an unlisted address reads as 0x00 (R59). -/
def Memory.read (m : Memory) (x : Nat) : Byte :=
  match m with
  | [] => 0
  | (y, v) :: m => if x = y then v else Memory.read m x

/-- Write one byte, keeping the canonical form. -/
def Memory.write (m : Memory) (x : Nat) (v : Byte) : Memory :=
  match m with
  | [] => Memory.cons x v []
  | (y, u) :: m =>
    if x < y then Memory.cons x v ((y, u) :: m)
    else if x = y then Memory.cons x v m
    else (y, u) :: Memory.write m x v

/-- Every listed address is at least `lo` and below `MEM_SIZE`, they rise strictly, and no listed byte is 0x00. -/
def Memory.wfFrom (lo : Nat) : Memory → Bool
  | [] => true
  | (x, v) :: m => decide (lo ≤ x) && decide (x < Config.memSize) && decide (v ≠ 0) && Memory.wfFrom (x + 1) m

/-- The canonical form of memory. -/
def Memory.wf (m : Memory) : Bool := Memory.wfFrom 0 m

/-- Write a list of bytes, in order. -/
def Memory.writeAll (m : Memory) : List (Nat × Byte) → Memory
  | [] => m
  | (x, v) :: l => Memory.writeAll (m.write x v) l

/-- `InRange(addr, n)` for a memory of `size` bytes (R10, R56). -/
def inRange (size : Nat) (addr : Addr) (n : Nat) : Bool := decide (addr.toNat + n ≤ size)

/-- The 16-bit value of the byte at an address and the byte after it (R53). -/
def dataWord (e : Endian) (first second : Byte) : Word :=
  match e with
  | .big => joinBytes first second
  | .little => joinBytes second first

/-- The byte a 16-bit store puts at its address (R53). -/
def dataFirst (e : Endian) (v : Word) : Byte :=
  match e with
  | .big => hi8 v
  | .little => lo8 v

/-- The byte a 16-bit store puts after its address (R53). -/
def dataSecond (e : Endian) (v : Word) : Byte :=
  match e with
  | .big => lo8 v
  | .little => hi8 v

/-- `MemRead(addr, 2)`, for an address in range (R10). -/
def Memory.readWord (m : Memory) (addr : Addr) : Word :=
  dataWord Params.dataEndian (m.read addr.toNat) (m.read (addr.toNat + 1))

/-- `MemWrite(addr, 2, v)`, for an address in range (R10). -/
def Memory.writeWord (m : Memory) (addr : Addr) (v : Word) : Memory :=
  (m.write addr.toNat (dataFirst Params.dataEndian v)).write (addr.toNat + 1) (dataSecond Params.dataEndian v)

/-! ## State updates -/

/-- `x[r]` (R8). -/
def State.getReg (s : State) : Reg → Word
  | .a => s.a
  | .b => s.b
  | .c => s.c

/-- `x[r] <- v` (R8). -/
def State.setReg (s : State) (r : Reg) (v : Word) : State :=
  match r with
  | .a => { s with a := v }
  | .b => { s with b := v }
  | .c => { s with c := v }

/-- `pc <- target` (R8). -/
def State.setPc (s : State) (target : Addr) : State := { s with pc := target }

/-- `pc` moved past `k` fetched bytes, modulo 2^16 (R9, R24, R25). -/
def State.advance (s : State) (k : Nat) : State := s.setPc (s.pc + BitVec.ofNat 16 k)

/-- Both flags written (R26). -/
def State.setFlags (s : State) (z n : Bool) : State := { s with z := z, n := n }

/-- The stack replaced. -/
def State.setStack (s : State) (st : List Word) : State := { s with stack := st }

/-- Memory replaced. -/
def State.setMem (s : State) (m : Memory) : State := { s with mem := m }

/-- The status replaced. -/
def State.setStatus (s : State) (st : Status) : State := { s with status := st }

/-- `Out(e)` (R12). -/
def State.emit (s : State) (e : OutEvent) : State := { s with out := s.out ++ [e] }

/-- `Delay(k)`: the request is handed over and answered; no architectural state changes (R12, R36; entries 8, 9). -/
def State.delay (s : State) (k : Nat) : State := { s with delays := s.delays ++ [k] }

/-- `status <- Halted`, the normal stop (R261). -/
def State.halt (s : State) : State := s.setStatus .halted

/-! ## Fetching (R9, R25, R37) -/

/-- The byte `k` places after `pc`, addresses taken modulo 2^16. -/
def State.codeByte (s : State) (k : Nat) : Byte := s.mem.read (s.pc + BitVec.ofNat 16 k).toNat

/-- The bytes from `pc` on that an instruction can have (entry 4). -/
def State.window (s : State) : CodeWindow :=
  ⟨s.codeByte 0, s.codeByte 1, s.codeByte 2, s.codeByte 3, s.codeByte 4, s.codeByte 5⟩

/-! ## Faults (R11, R250 to R259) -/

/-- The code of a fault (R250). -/
def FaultRecord.code : FaultRecord → Nat
  | .unknownOpcode _ _ => 1
  | .unknownRegister _ _ => 2
  | .unknownSyscall _ _ => 3
  | .unknownInterrupt _ _ => 4
  | .stackOverflow _ _ => 5

/-- `raise`: taking a fault sets `status` and changes nothing else (R11, R257, R259). The caller has moved `pc`
past the bytes fetched. -/
def State.raise (s : State) (r : FaultRecord) : State := s.setStatus (.faulted r)

/-- The step on an opcode byte outside the map: `pc` is one further and `UnknownOpcode` is raised (R37, R251). -/
def State.raiseUnknownOpcode (s : State) (k : Byte) : State :=
  (s.advance 1).raise (.unknownOpcode k s.pc)

/-! ## The stack (R13, R28, R29) -/

/-- Whether `Push` has room: always, when the depth is unbounded (R13). -/
def State.hasRoom (s : State) : Option Nat → Bool
  | none => true
  | some d => decide (s.stack.length ≠ d)

/-- `stack <- stack ++ [v]` (R13). -/
def State.push (s : State) (v : Word) : State := s.setStack (s.stack ++ [v])

/-- `Push(v)` and then `k`, or `StackOverflow` when a bounded stack is full (R13, R254). -/
def State.pushThen (s : State) (depth : Option Nat) (opAddr : Addr) (v : Word) (k : State → State) : State :=
  if s.hasRoom depth then k (s.push v) else s.raise (.stackOverflow v opAddr)

/-- `Pop()` and then `k`; nothing when the stack is empty (R13, R29). -/
def State.popThen (s : State) (k : State → Word → State) : State :=
  match s.stack.getLast? with
  | some v => k (s.setStack s.stack.dropLast) v
  | none => s

/-! ## Data accesses with the bound check (R10, R56, R150) -/

/-- A 16-bit load into a register; skipped when out of range. -/
def State.loadWord (s : State) (size : Nat) (r : Reg) (addr : Addr) : State :=
  if inRange size addr 2 then s.setReg r (s.mem.readWord addr) else s

/-- A 16-bit store; skipped whole when out of range. -/
def State.storeWord (s : State) (size : Nat) (addr : Addr) (v : Word) : State :=
  if inRange size addr 2 then s.setMem (s.mem.writeWord addr v) else s

/-- An 8-bit load, zero-extended into the register (R55); skipped when out of range. -/
def State.loadByte (s : State) (size : Nat) (r : Reg) (addr : Addr) : State :=
  if inRange size addr 1 then s.setReg r ((s.mem.read addr.toNat).zeroExtend 16) else s

/-- An 8-bit store; skipped when out of range. -/
def State.storeByte (s : State) (size : Nat) (addr : Addr) (v : Byte) : State :=
  if inRange size addr 1 then s.setMem (s.mem.write addr.toNat v) else s

/-! ## The two resets (R280, R283) -/

/-- What both resets restore: `pc`, the registers, the flags and the stack (R283). -/
def State.restore (s : State) : State :=
  { s with pc := s.instrBase, a := 0, b := 0, c := 0, z := false, n := false, stack := [] }

/-- The external Reset with its input `base`; memory is not touched (R280, R282; entries 7, 8, 32). -/
def State.applyReset (s : State) (base : Addr) : State :=
  { State.restore { s with instrBase := base } with status := .running, out := [], delays := [] }

/-- The launch of R284: zero fill, write the image, then Reset at `base`. -/
def State.launch (image : List (Nat × Byte)) (base : Addr) : State :=
  ({ State.reset with mem := Memory.writeAll [] image }).applyReset base

/-! ## Rendering of the output trace (R35; entry 25) -/

/-- The text of a number under a reading of register values (R35, R122): its decimal digits with nothing around them.
The readings differ only when bit 15 is set; there the signed one is a free value. -/
def numberText (m : Numerics) (v : Word) : List Char :=
  match m with
  | .unsigned => Nat.toDigits 10 v.toNat
  | .signed => if v.msb then Config.signedText v else Nat.toDigits 10 v.toNat

/-- A `Num` event is the text of its number, a `Chr` event the one character with its code (R35, R199). DESIGN CHOICE,
unsafe: no character set is given; the model reads all 256 codes as Unicode code points (entry 25). -/
def OutEvent.render : OutEvent → List Char
  | .num v => numberText Params.numerics v
  | .chr v => [Char.ofNat v.toNat]

/-- The text of an output trace. -/
def renderTrace (out : List OutEvent) : List Char := out.flatMap OutEvent.render

end Sys2Proof.Machine
end

