-- ==== Sys2Proof/Machine/Operands.lean ====
section
/-! DEFINITION. Operand forms (30_encoding R93 to R96). Addresses and immediates are used as they stand, so the
register letter is the one form with work to do; the arithmetic unit's readings of its operands stand here too
(40_arithmetic R120 to R123). -/

namespace Sys2Proof.Machine

/-- Run `k` on the register a letter names, or raise `UnknownRegister` for the instruction at `opAddr`; `s` has all
operand bytes already fetched (R95, R96, R252). -/
def withReg (o : RegOperand) (opAddr : Addr) (s : State) (k : Reg → State) : State :=
  match o with
  | .reg r => k r
  | .bad b => s.raise (.unknownRegister b opAddr)

/-- `x < y` under a reading of register values (R122). -/
def lessThan (m : Numerics) (x y : Word) : Bool :=
  match m with
  | .unsigned => x.ult y
  | .signed => x.slt y

/-- The quotient for a non-zero divisor (R123). The reading matters only when an operand has bit 15 set (D7); there the
signed one is a free value, which R123 does not give. -/
def quotient (m : Numerics) (x y : Word) : Word :=
  match m with
  | .unsigned => x / y
  | .signed => if x.msb || y.msb then Config.signedQuotient x y else x / y

/-- The remainder for a non-zero divisor (R123); free where `quotient` is. -/
def remainder (m : Numerics) (x y : Word) : Word :=
  match m with
  | .unsigned => x % y
  | .signed => if x.msb || y.msb then Config.signedRemainder x y else x % y

/-- How many bytes the engine consumes for `mov_reg_imm` (R92, R144; D5). -/
def movRegImmLen (f : MovRegImmFormat) : Nat :=
  match f with
  | .frai => Mnemonic.movRegImm.len
  | .fourByte => 4

/-- Which of the two words after its letter is the immediate of `mov_reg_imm` (R144; D5). -/
def movRegImmValue (f : MovRegImmFormat) (first second : Word) : Word :=
  match f with
  | .frai => second
  | .fourByte => first

end Sys2Proof.Machine
end

