-- ==== Sys2Proof/Machine/Flags.lean ====
section
/-! DEFINITION. Flag computations and the conditions that read them (10_state R26, R27; 40_arithmetic R130;
43_control_transfer R171 to R174). -/

namespace Sys2Proof.Machine

/-- `cmp`'s flags: `Z <- (C = B)`, `N <- (B < C)` (R26, R130). -/
def State.compareFlags (s : State) (m : Numerics) (b c : Word) : State :=
  s.setFlags (decide (c = b)) (lessThan m b c)

/-- The condition of `jp` (R174). -/
def jpTaken (j : JpCond) (z n : Bool) : Bool :=
  match j with
  | .negativeClear => !n
  | .negativeAndZeroClear => !n && !z

/-- `pc <- target` when `taken`, else `pc` stays past the instruction (R180). -/
def State.jumpIf (s : State) (taken : Bool) (target : Addr) : State :=
  if taken then s.setPc target else s

end Sys2Proof.Machine
end

