-- ==== Sys2Proof/Machine/Arithmetic.lean ====
section
/-! DEFINITION. Arithmetic and comparison (40_arithmetic R120 to R131). Each meaning takes the state whose `pc` is
the opcode byte's address and first moves `pc` past the instruction (R24; entry 1). -/

namespace Sys2Proof.Machine

/-- `add` (R124). -/
def execAdd (s : State) : Result :=
  .next ((s.advance Mnemonic.add.len).setReg .a (s.a + s.b))

/-- `sub` (R125). -/
def execSub (s : State) : Result :=
  .next ((s.advance Mnemonic.sub.len).setReg .a (s.a - s.b))

/-- `mul` (R126). -/
def execMul (s : State) : Result :=
  .next ((s.advance Mnemonic.mul.len).setReg .a (s.a * s.b))

/-- `div` (R127). -/
def execDiv (s : State) : Result :=
  let t := s.advance Mnemonic.div.len
  .next (if s.b = 0 then t else t.setReg .a (quotient Params.numerics s.a s.b))

/-- `mod` (R128). -/
def execMod (s : State) : Result :=
  let t := s.advance Mnemonic.mod.len
  .next (if s.b = 0 then t else t.setReg .a (remainder Params.numerics s.a s.b))

/-- `inc` (R129). -/
def execInc (o : RegOperand) (s : State) : Result :=
  let t := s.advance Mnemonic.inc.len
  .next (withReg o s.pc t fun r => t.setReg r (s.getReg r + 1))

/-- `cmp` (R130). -/
def execCmp (s : State) : Result :=
  .next ((s.advance Mnemonic.cmp.len).compareFlags Params.numerics s.b s.c)

end Sys2Proof.Machine
end

