-- ==== Sys2Proof/Machine/Control.lean ====
section
/-! DEFINITION. Control transfer (43_control_transfer R170 to R181). Every target is the absolute operand (R180). -/

namespace Sys2Proof.Machine

/-- `jmp` (R170). -/
def execJmp (addr : Addr) (s : State) : Result :=
  .next ((s.advance Mnemonic.jmp.len).setPc addr)

/-- `jz` (R171). -/
def execJz (addr : Addr) (s : State) : Result :=
  .next ((s.advance Mnemonic.jz.len).jumpIf s.z addr)

/-- `jnz` (R172). -/
def execJnz (addr : Addr) (s : State) : Result :=
  .next ((s.advance Mnemonic.jnz.len).jumpIf (!s.z) addr)

/-- `jn` (R173). -/
def execJn (addr : Addr) (s : State) : Result :=
  .next ((s.advance Mnemonic.jn.len).jumpIf s.n addr)

/-- `jp` (R174). -/
def execJp (addr : Addr) (s : State) : Result :=
  .next ((s.advance Mnemonic.jp.len).jumpIf (jpTaken Params.jpCond s.z s.n) addr)

/-- `jeq` (R175). -/
def execJeq (addr : Addr) (s : State) : Result :=
  .next ((s.advance Mnemonic.jeq.len).jumpIf (decide (s.b = s.c)) addr)

/-- `jgt` (R176). -/
def execJgt (addr : Addr) (s : State) : Result :=
  .next ((s.advance Mnemonic.jgt.len).jumpIf (lessThan Params.numerics s.c s.b) addr)

/-- `jlt` (R177). -/
def execJlt (addr : Addr) (s : State) : Result :=
  .next ((s.advance Mnemonic.jlt.len).jumpIf (lessThan Params.numerics s.b s.c) addr)

/-- `call` for a stack of the given depth (R178, R254): the address after the operands is pushed, then the jump. -/
def State.call (s : State) (depth : Option Nat) (addr : Addr) : State :=
  let t := s.advance Mnemonic.call.len
  t.pushThen depth s.pc t.pc fun u => u.setPc addr

/-- `call` (R178). -/
def execCall (addr : Addr) (s : State) : Result :=
  .next (s.call Params.stackDepth addr)

/-- `ret` (R179). -/
def execRet (s : State) : Result :=
  .next ((s.advance Mnemonic.ret.len).popThen fun u v => u.setPc v)

end Sys2Proof.Machine
end

