-- ==== Sys2Proof/Machine/MemoryAccess.lean ====
section
/-! DEFINITION. Loads and stores (42_memory_access R150 to R162). Order of work (R150): fetch all operands, test
the register letter, test the bound, then the one access. -/

namespace Sys2Proof.Machine

/-- `load` (R151). -/
def execLoad (addr : Addr) (o : RegOperand) (s : State) : Result :=
  let t := s.advance Mnemonic.load.len
  .next (withReg o s.pc t fun r => t.loadWord Config.memSize r addr)

/-- `store` (R152). -/
def execStore (addr : Addr) (o : RegOperand) (s : State) : Result :=
  let t := s.advance Mnemonic.store.len
  .next (withReg o s.pc t fun r => t.storeWord Config.memSize addr (s.getReg r))

/-- `load_a` (R153). -/
def execLoadA (addr : Addr) (s : State) : Result :=
  .next ((s.advance Mnemonic.loadA.len).loadWord Config.memSize .a addr)

/-- `store_a` (R154). -/
def execStoreA (addr : Addr) (s : State) : Result :=
  .next ((s.advance Mnemonic.storeA.len).storeWord Config.memSize addr s.a)

/-- `load8_a` (R155). -/
def execLoad8A (addr : Addr) (s : State) : Result :=
  .next ((s.advance Mnemonic.load8A.len).loadByte Config.memSize .a addr)

/-- `store8_a` (R156). -/
def execStore8A (addr : Addr) (s : State) : Result :=
  .next ((s.advance Mnemonic.store8A.len).storeByte Config.memSize addr (lo8 s.a))

/-- `mov_reg_mem` (R157). -/
def execMovRegMem (o : RegOperand) (addr : Addr) (s : State) : Result :=
  let t := s.advance Mnemonic.movRegMem.len
  .next (withReg o s.pc t fun r => t.loadWord Config.memSize r addr)

/-- `mov_reg_mem2` under a choice of its data effect (R158); without one, the letter is still checked (U4). -/
def State.movRegMem2 (s : State) (e : MovRegMem2) (o : RegOperand) (addr : Addr) : Result :=
  let t := s.advance Mnemonic.movRegMem2.len
  let done := Host.Outcome.next (withReg o s.pc t fun r => t.loadWord Config.memSize r addr)
  match e with
  | .asMovRegMem => done
  | .refuse =>
    match o with
    | .reg _ => .refused .movRegMem2Effect
    | .bad _ => done

/-- `mov_reg_mem2` (R158; its data effect is decision D13, entry 17). -/
def execMovRegMem2 (o : RegOperand) (addr : Addr) (s : State) : Result :=
  s.movRegMem2 Params.movRegMem2 o addr

/-- `mov_mem_reg` (R159). -/
def execMovMemReg (addr : Addr) (o : RegOperand) (s : State) : Result :=
  let t := s.advance Mnemonic.movMemReg.len
  .next (withReg o s.pc t fun r => t.storeWord Config.memSize addr (s.getReg r))

/-- `mov_mem_imm` (R160). -/
def execMovMemImm (addr : Addr) (imm : Word) (s : State) : Result :=
  .next ((s.advance Mnemonic.movMemImm.len).storeWord Config.memSize addr imm)

/-- `mov8_mem_imm` (R161). -/
def execMov8MemImm (addr : Addr) (imm : Byte) (s : State) : Result :=
  .next ((s.advance Mnemonic.mov8MemImm.len).storeByte Config.memSize addr imm)

end Sys2Proof.Machine
end

