-- ==== Sys2Proof/Machine/Moves.lean ====
section
/-! DEFINITION. Immediate loads and register moves (41_register_moves R140 to R145). -/

namespace Sys2Proof.Machine

/-- `lda` (R140). -/
def execLda (imm : Word) (s : State) : Result :=
  .next ((s.advance Mnemonic.lda.len).setReg .a imm)

/-- `ldb` (R141). -/
def execLdb (imm : Word) (s : State) : Result :=
  .next ((s.advance Mnemonic.ldb.len).setReg .b imm)

/-- `ldc` (R142). -/
def execLdc (imm : Word) (s : State) : Result :=
  .next ((s.advance Mnemonic.ldc.len).setReg .c imm)

/-- `mov_reg_reg`: the first letter is the destination, and the first bad letter is the one reported (R143). -/
def execMovRegReg (dst src : RegOperand) (s : State) : Result :=
  let t := s.advance Mnemonic.movRegReg.len
  .next (withReg dst s.pc t fun d => withReg src s.pc t fun r => t.setReg d (s.getReg r))

/-- `mov_reg_imm`: the address operand is fetched and has no effect (R144). -/
def execMovRegImm (o : RegOperand) (addr : Addr) (imm : Word) (s : State) : Result :=
  let t := s.advance (movRegImmLen Params.movRegImmFormat)
  .next (withReg o s.pc t fun r => t.setReg r (movRegImmValue Params.movRegImmFormat addr imm))

end Sys2Proof.Machine
end

