-- ==== Sys2Proof/Machine/Stack.lean ====
section
/-! DEFINITION. The explicit stack instructions (44_stack R190 to R192; all of decision D4, entry 22). -/

namespace Sys2Proof.Machine

/-- `push` for a stack of the given depth (R190, R254). -/
def State.pushReg (s : State) (depth : Option Nat) (o : RegOperand) : State :=
  let t := s.advance Mnemonic.push.len
  withReg o s.pc t fun r => t.pushThen depth s.pc (s.getReg r) id

/-- `push` (R190). -/
def execPush (o : RegOperand) (s : State) : Result :=
  .next (s.pushReg Params.stackDepth o)

/-- `pop` (R191). -/
def execPop (o : RegOperand) (s : State) : Result :=
  let t := s.advance Mnemonic.pop.len
  .next (withReg o s.pc t fun r => t.popThen fun u v => u.setReg r v)

end Sys2Proof.Machine
end

