-- ==== Sys2Proof/Machine/System.lean ====
section
/-! DEFINITION. System instructions (45_system R195 to R202). `syscall` and `int` are no traps: each picks an effect
from a fixed table (R201). -/

namespace Sys2Proof.Machine

/-- `nop` (R195). -/
def execNop (s : State) : Result :=
  .next (s.advance Mnemonic.nop.len)

/-- `halt` (R196). -/
def execHalt (s : State) : Result :=
  .next (s.advance Mnemonic.halt.len).halt

/-- `wait` (R197). -/
def execWait (v : Byte) (s : State) : Result :=
  .next ((s.advance Mnemonic.wait.len).delay v.toNat)

/-- The reset of `int INT_RESET`: the restored state, stopped unless `INT_RESET_CONTINUES` (R198, R283). -/
def State.intReset (s : State) (continues : Bool) : State :=
  if continues then s.restore else s.restore.halt

/-- `int` (R198). -/
def execInt (v : Byte) (s : State) : Result :=
  let t := s.advance Mnemonic.int.len
  .next
    (if v = Params.intPrint then t.emit (.num (s.getReg Params.intPrintSrc))
     else if v = Params.intWait then t.delay s.b.toNat
     else if v = Params.intReset then t.intReset Params.intResetContinues
     else t.raise (.unknownInterrupt v s.pc))

/-- `syscall` (R199). -/
def execSyscall (s : State) : Result :=
  let t := s.advance Mnemonic.syscall.len
  .next
    (if s.a = Params.sysNop then t
     else if s.a = Params.sysWait then t.delay s.b.toNat
     else if s.a = Params.sysPrintNum then t.emit (.num s.b)
     else if s.a = Params.sysPrintChar then t.emit (.chr (lo8 s.b))
     else if s.a = Params.sysExit then t.halt
     else t.raise (.unknownSyscall s.a s.pc))

/-- `printa` (R200). -/
def execPrinta (s : State) : Result :=
  .next ((s.advance Mnemonic.printa.len).emit (.num s.a))

end Sys2Proof.Machine
end

