-- ==== Sys2Proof/Machine/Dispatch.lean ====
section
/-! DEFINITION. What one instruction does, one arm per constructor of Instr; `s.pc` is the opcode byte's address. -/

namespace Sys2Proof.Machine

/-- The meaning of an instruction at a state whose `pc` is the address of its opcode byte (R14, R37; entry 1). -/
def exec (i : Instr) (s : State) : Host.Outcome State Fault Refusal :=
  match i with
  | .nop => Sys2Proof.Machine.execNop s
  | .halt => Sys2Proof.Machine.execHalt s
  | .add => Sys2Proof.Machine.execAdd s
  | .sub => Sys2Proof.Machine.execSub s
  | .mul => Sys2Proof.Machine.execMul s
  | .div => Sys2Proof.Machine.execDiv s
  | .mod => Sys2Proof.Machine.execMod s
  | .cmp => Sys2Proof.Machine.execCmp s
  | .inc r => Sys2Proof.Machine.execInc r s
  | .lda imm => Sys2Proof.Machine.execLda imm s
  | .ldb imm => Sys2Proof.Machine.execLdb imm s
  | .ldc imm => Sys2Proof.Machine.execLdc imm s
  | .movRegReg dst src => Sys2Proof.Machine.execMovRegReg dst src s
  | .movRegImm r addr imm => Sys2Proof.Machine.execMovRegImm r addr imm s
  | .load addr r => Sys2Proof.Machine.execLoad addr r s
  | .store addr r => Sys2Proof.Machine.execStore addr r s
  | .loadA addr => Sys2Proof.Machine.execLoadA addr s
  | .storeA addr => Sys2Proof.Machine.execStoreA addr s
  | .load8A addr => Sys2Proof.Machine.execLoad8A addr s
  | .store8A addr => Sys2Proof.Machine.execStore8A addr s
  | .movRegMem r addr => Sys2Proof.Machine.execMovRegMem r addr s
  | .movRegMem2 r addr => Sys2Proof.Machine.execMovRegMem2 r addr s
  | .movMemReg addr r => Sys2Proof.Machine.execMovMemReg addr r s
  | .movMemImm addr imm => Sys2Proof.Machine.execMovMemImm addr imm s
  | .mov8MemImm addr imm => Sys2Proof.Machine.execMov8MemImm addr imm s
  | .jmp addr => Sys2Proof.Machine.execJmp addr s
  | .jz addr => Sys2Proof.Machine.execJz addr s
  | .jnz addr => Sys2Proof.Machine.execJnz addr s
  | .jn addr => Sys2Proof.Machine.execJn addr s
  | .jp addr => Sys2Proof.Machine.execJp addr s
  | .jeq addr => Sys2Proof.Machine.execJeq addr s
  | .jgt addr => Sys2Proof.Machine.execJgt addr s
  | .jlt addr => Sys2Proof.Machine.execJlt addr s
  | .call addr => Sys2Proof.Machine.execCall addr s
  | .ret => Sys2Proof.Machine.execRet s
  | .push r => Sys2Proof.Machine.execPush r s
  | .pop r => Sys2Proof.Machine.execPop r s
  | .wait v => Sys2Proof.Machine.execWait v s
  | .int v => Sys2Proof.Machine.execInt v s
  | .syscall => Sys2Proof.Machine.execSyscall s
  | .printa => Sys2Proof.Machine.execPrinta s

end Sys2Proof.Machine
end

