-- ==== Sys2Proof/Machine/Step.lean ====
section
/-! DEFINITION. One step of the engine (10_state R37), and the host's way to place an instruction. -/

namespace Sys2Proof.Machine

/-- One step (R37): no step unless `Running`; else decode the bytes at `pc` and run the handler, or raise
`UnknownOpcode`. -/
def step (s : State) : Host.Outcome State Fault Refusal :=
  match s.status with
  | .running =>
    match decode s.window with
    | .ok i => exec i s
    | .error (.unknownOpcode k) => .next (s.raiseUnknownOpcode k)
  | .halted | .faulted _ => .fault .engineStopped

/-- The six bytes of a table word stored from `pc` on (addresses modulo 2^16), and the engine running, so that the
next step fetches and runs that instruction (entry 33). -/
def State.withFetchWord (s : State) (nbits w : Nat) : State :=
  let place := fun (m : Memory) (k : Nat) => m.write (s.pc + BitVec.ofNat 16 k).toNat (tableByte nbits w k)
  { s with mem := place (place (place (place (place (place s.mem 0) 1) 2) 3) 4) 5, status := .running }

end Sys2Proof.Machine
end

