-- ==== Sys2Proof/Machine/Source.lean ====
section
/-! DEFINITION. The text format of the assembler's source (30_encoding R102 to R108; 48_symbol_resolver R220, R221):
comments, labels, statements, operand words and literals. A line is its characters. Lexical choices are those of
decision D26 (entry 29), refusals those of D26 and D27 (entry 30). -/

namespace Sys2Proof.Machine

/-- A line or a piece of one. -/
abbrev Text := List Char

/-- Why the resolver refuses a source (D26, D27). All safe: what the source document leaves open is not guessed. -/
inductive AsmRefusal where
  /-- A label name outside the accepted form (R103). -/
  | labelName (name : Text)
  /-- A name defined twice (R226). -/
  | duplicateLabel (name : Text)
  /-- Operands that do not fit the mnemonic's shape, or a register operand that is not `a`, `b` or `c` (R105). -/
  | operands (text : Text)
  /-- A literal that is malformed or does not fit its field (R108). -/
  | literal (text : Text)
  /-- A cursor that would pass 0xFFFF (R216). -/
  | cursorPastEnd
  deriving DecidableEq, Repr

/-- White space: blank, tab, carriage return, line feed (which characters is the model's choice, entry 29). -/
def isSpace (c : Char) : Bool := c == ' ' || c == '\t' || c == '\r' || c == '\n'

/-- Everything before the first comment marker, `;` or `//` (R102). -/
def stripComment : Text → Text
  | [] => []
  | ';' :: _ => []
  | '/' :: '/' :: _ => []
  | c :: cs => c :: stripComment cs

/-- Surrounding white space removed. -/
def trim (t : Text) : Text := ((t.dropWhile isSpace).reverse.dropWhile isSpace).reverse

/-- A line's preprocessing, the same in both passes (R102). -/
def preprocess (t : Text) : Text := trim (stripComment t)

/-- The text before and after the first colon (R103). -/
def splitColon : Text → Option (Text × Text)
  | [] => none
  | c :: cs => if c = ':' then some ([], cs) else (splitColon cs).map fun p => (c :: p.1, p.2)

/-- A line's label, if it defines one, and the rest of its content (R103). -/
def splitLine (l : Text) : Option Text × Text :=
  match splitColon (preprocess l) with
  | some (name, rest) => (some (trim name), preprocess rest)
  | none => (none, preprocess l)

/-- A character a label name may hold (R103). DESIGN CHOICE, safe: R103 says "letters, digits and `_`" and no more, and
N16 warns against assuming ASCII sources; the model takes the ASCII letters and digits only and refuses every other
character (entry 29). -/
def isNameChar (c : Char) : Bool := c.isAlphanum || c == '_'

/-- The label names accepted: letters, digits and `_` in the sense of `isNameChar`, not starting with a digit, so not
with `0x` (R103). -/
def validName : Text → Bool
  | [] => false
  | c :: cs => isNameChar c && !c.isDigit && cs.all isNameChar

/-- The spelling of a mnemonic, in lower case (R97, R104). -/
def spelling : Mnemonic → Text
  | .nop => "nop".toList | .halt => "halt".toList | .add => "add".toList | .sub => "sub".toList
  | .mul => "mul".toList | .div => "div".toList | .mod => "mod".toList | .cmp => "cmp".toList
  | .inc => "inc".toList | .lda => "lda".toList | .ldb => "ldb".toList | .ldc => "ldc".toList
  | .movRegReg => "mov_reg_reg".toList | .movRegImm => "mov_reg_imm".toList
  | .load => "load".toList | .store => "store".toList
  | .loadA => "load_a".toList | .storeA => "store_a".toList
  | .load8A => "load8_a".toList | .store8A => "store8_a".toList
  | .movRegMem => "mov_reg_mem".toList | .movRegMem2 => "mov_reg_mem2".toList
  | .movMemReg => "mov_mem_reg".toList | .movMemImm => "mov_mem_imm".toList
  | .mov8MemImm => "mov8_mem_imm".toList
  | .jmp => "jmp".toList | .jz => "jz".toList | .jnz => "jnz".toList | .jn => "jn".toList
  | .jp => "jp".toList | .jeq => "jeq".toList | .jgt => "jgt".toList | .jlt => "jlt".toList
  | .call => "call".toList | .ret => "ret".toList | .push => "push".toList | .pop => "pop".toList
  | .wait => "wait".toList | .int => "int".toList | .syscall => "syscall".toList | .printa => "printa".toList

/-- The mnemonic a token spells, exactly (R104). -/
def mnemonicOf (t : Text) : Option Mnemonic := Mnemonic.all.find? (fun m => spelling m == t)

/-- The text up to the first white space (R104). -/
def firstToken (t : Text) : Text := t.takeWhile (fun c => !isSpace c)

/-- The text after the first token. -/
def afterToken (t : Text) : Text := t.dropWhile (fun c => !isSpace c)

/-- What a line's content is, tested in the order label, `.org`, `.db`, mnemonic (R225). -/
inductive Stmt where
  | empty
  /-- The text after `.org`. -/
  | org (operand : Text)
  /-- The whole content, which starts with `.db`. -/
  | db (content : Text)
  | instr (m : Mnemonic) (operands : Text)
  | unknown (token : Text)
  deriving DecidableEq, Repr

/-- Classify a label-stripped, preprocessed content (R104, R225). -/
def classify (t : Text) : Stmt :=
  if t = [] then .empty
  else if ".org".toList.isPrefixOf t then .org (t.drop 4)
  else if ".db".toList.isPrefixOf t then .db t
  else match mnemonicOf (firstToken t) with
    | some m => .instr m (afterToken t)
    | none => .unknown (firstToken t)

/-- The statement on a line. -/
def lineStmt (l : Text) : Stmt := classify (splitLine l).2

/-! ## Literals (R106 to R108) -/

/-- The value of a decimal digit, an ASCII one (the model's choice, entry 29). -/
def decDigit (c : Char) : Option Nat := if c.isDigit then some (c.toNat - '0'.toNat) else none

/-- The value of a hexadecimal digit, of either case (either case is the model's choice, entry 29). -/
def hexDigit (c : Char) : Option Nat :=
  if c.isDigit then some (c.toNat - '0'.toNat)
  else if 'a' ≤ c ∧ c ≤ 'f' then some (c.toNat - 'a'.toNat + 10)
  else if 'A' ≤ c ∧ c ≤ 'F' then some (c.toNat - 'A'.toNat + 10)
  else none

/-- The value of a run of digits, most significant first, after a value already read. -/
def digitsFrom (base : Nat) (digit : Char → Option Nat) (acc : Nat) : Text → Option Nat
  | [] => some acc
  | c :: cs =>
    match digit c with
    | some d => digitsFrom base digit (acc * base + d) cs
    | none => none

/-- The value of a non-empty run of digits. -/
def digitsValue (base : Nat) (digit : Char → Option Nat) (t : Text) : Option Nat :=
  if t = [] then none else digitsFrom base digit 0 t

/-- Whether a text starts with the hexadecimal marker `0x`. -/
def has0x (t : Text) : Bool := "0x".toList.isPrefixOf t

/-- A hexadecimal text without its optional `0x` (R106). -/
def hexBody (t : Text) : Text := if has0x t then t.drop 2 else t

/-- A decimal literal below a bound (R107, R108). -/
def parseDec (bound : Nat) (t : Text) : Except AsmRefusal Nat :=
  match digitsValue 10 decDigit t with
  | some v => if v < bound then .ok v else .error (.literal t)
  | none => .error (.literal t)

/-- A hexadecimal literal of at most four digits, below a bound (R106 to R108). -/
def parseHex (bound : Nat) (t : Text) : Except AsmRefusal Nat :=
  if 4 < (hexBody t).length then .error (.literal t)
  else match digitsValue 16 hexDigit (hexBody t) with
    | some v => if v < bound then .ok v else .error (.literal t)
    | none => .error (.literal t)

/-- A 16-bit hexadecimal literal. -/
def parseHexWord (t : Text) : Except AsmRefusal Word := (parseHex 65536 t).map (BitVec.ofNat 16)

/-- An 8-bit hexadecimal literal. -/
def parseHexByte (t : Text) : Except AsmRefusal Byte := (parseHex 256 t).map (BitVec.ofNat 8)

/-- A 16-bit decimal literal. -/
def parseDecWord (t : Text) : Except AsmRefusal Word := (parseDec 65536 t).map (BitVec.ofNat 16)

/-- An 8-bit decimal literal. -/
def parseDecByte (t : Text) : Except AsmRefusal Byte := (parseDec 256 t).map (BitVec.ofNat 8)

/-- A register operand: exactly one of the three letters (R105). -/
def parseReg (t : Text) : Except AsmRefusal RegOperand :=
  match t with
  | ['a'] => .ok (.reg .a)
  | ['b'] => .ok (.reg .b)
  | ['c'] => .ok (.reg .c)
  | _ => .error (.operands t)

/-- `.org`'s operand: white space, then a 16-bit hexadecimal literal (R220). -/
def orgOperand (t : Text) : Except AsmRefusal Addr :=
  match t with
  | c :: _ => if isSpace c then parseHexWord (trim t) else .error (.literal t)
  | [] => .error (.literal t)

/-! ## Words of a list of operands -/

/-- Cut a text into words and commas (R104): `some w` is a word, `none` a comma; `cur` is the word being read. -/
def lexOperands (cur : Text) : Text → List (Option Text)
  | [] => if cur = [] then [] else [some cur]
  | c :: cs =>
    if c = ',' then (if cur = [] then [none] else [some cur, none]) ++ lexOperands [] cs
    else if isSpace c then (if cur = [] then [] else [some cur]) ++ lexOperands [] cs
    else lexOperands (cur ++ [c]) cs

/-- Words separated by white space, a comma, or both (R104): a comma stands between two words, never first, last or
doubled. `afterWord` says that a word stands just before. -/
def operandWords (afterWord : Bool) : List (Option Text) → Option (List Text)
  | [] => some []
  | some w :: l => (operandWords true l).map (w :: ·)
  | none :: some w :: l => if afterWord then (operandWords true l).map (w :: ·) else none
  | none :: _ => none

/-- A `.db` item is counted when it is decimal digits, or `0x` and hexadecimal digits (R221). -/
def isDbItem (t : Text) : Bool :=
  if has0x t then (digitsValue 16 hexDigit (t.drop 2)).isSome else (digitsValue 10 decDigit t).isSome

/-- How many values a `.db` line counts: its items up to the first that is no value (R221). -/
def dbCount (content : Text) : Nat :=
  (((lexOperands [] (content.drop 3)).filterMap id).takeWhile isDbItem).length

end Sys2Proof.Machine
end

