-- ==== Sys2Proof/Machine/Resolver.lean ====
section
/-! DEFINITION. The symbol-table address resolver (48_symbol_resolver R215 to R237): pass 1 gives every label the
cursor of the size table, pass 2 emits the bytes. It is a function of the source lines and the origin (R215, R233)
and runs to its end before the engine starts (R284). -/

namespace Sys2Proof.Machine

/-- The symbol table, in the order of definition (R217). -/
abbrev SymTab := List (Text × Addr)

/-- The address recorded for a name, case-sensitively (R217, R229). -/
def SymTab.find (tab : SymTab) (name : Text) : Option Addr :=
  (List.find? (fun p => p.1 == name) tab).map (·.2)

/-- A diagnostic, which never stops assembly (R235). -/
inductive Diag where
  | unknownSize (token : Text)
  | unresolvedLabel (name : Text)
  | unknownMnemonic (token : Text)
  deriving DecidableEq, Repr

/-- `SIZE`, the Instruction Size Table of pass 1: `LEN` but for `mov_reg_imm` (R6, R222, R223). -/
def sizeTable (sizeMovRegImm : Nat) (m : Mnemonic) : Nat :=
  if m = .movRegImm then sizeMovRegImm else m.len

/-- `SIZE` with its default (R222; D6, entry 31). -/
def instrSize (m : Mnemonic) : Nat := sizeTable Params.sizeMovRegImm m

/-- The cursor after `k` more bytes; refused when it would pass 0xFFFF (R216). -/
def moveCursor (cursor k : Nat) : Except AsmRefusal Nat :=
  if cursor + k ≤ Config.memSize then .ok (cursor + k) else .error .cursorPastEnd

/-! ## Pass 1 (R219 to R226) -/

/-- What pass 1 carries from line to line. -/
structure Pass1 where
  cursor : Nat
  symtab : SymTab
  diags : List Diag
  deriving DecidableEq, Repr

/-- Record a label at the cursor, before anything else on its line (R219); a second definition is refused (R226). -/
def Pass1.label (p : Pass1) (name : Text) : Except AsmRefusal Pass1 :=
  if !validName name then .error (.labelName name)
  else if (p.symtab.find name).isSome then .error (.duplicateLabel name)
  else if p.cursor < Config.memSize then
    .ok { p with symtab := p.symtab ++ [(name, BitVec.ofNat 16 p.cursor)] }
  else .error .cursorPastEnd

/-- Move pass 1's cursor over a statement, by sizes `size` (R220 to R224). -/
def Pass1.stmt (size : Mnemonic → Nat) (p : Pass1) : Stmt → Except AsmRefusal Pass1
  | .empty => .ok p
  | .org operand => (orgOperand operand).map fun v => { p with cursor := v.toNat }
  | .db content => (moveCursor p.cursor (dbCount content)).map fun k => { p with cursor := k }
  | .instr m _ => (moveCursor p.cursor (size m)).map fun k => { p with cursor := k }
  | .unknown t => (moveCursor p.cursor 1).map fun k => { p with cursor := k, diags := p.diags ++ [.unknownSize t] }

/-- One line of pass 1 (R225). -/
def Pass1.line (size : Mnemonic → Nat) (p : Pass1) (l : Text) : Except AsmRefusal Pass1 :=
  match (splitLine l).1 with
  | some name =>
    match p.label name with
    | .ok q => q.stmt size (lineStmt l)
    | .error e => .error e
  | none => p.stmt size (lineStmt l)

/-- Pass 1 over the lines in order (R225). -/
def Pass1.lines (size : Mnemonic → Nat) (p : Pass1) : List Text → Except AsmRefusal Pass1
  | [] => .ok p
  | l :: ls =>
    match p.line size l with
    | .ok q => Pass1.lines size q ls
    | .error e => .error e

/-- Pass 1 starts at the origin with the table cleared (R216, R217). -/
def Pass1.start (origin : Addr) : Pass1 := ⟨origin.toNat, [], []⟩

/-! ## Operands (R105 to R107) -/

/-- An operand of the jump class: a `0x` literal, or a label; an unresolved label is the zero placeholder and a
report (R106, R229). -/
def jumpOperand (tab : SymTab) (t : Text) : Except AsmRefusal (Addr × List Diag) :=
  if has0x t then (parseHexWord t).map fun v => (v, [])
  else match tab.find t with
    | some v => .ok (v, [])
    | none => .ok (0, [.unresolvedLabel t])

/-- A statement without operands. -/
def asm0 (i : Instr) : List Text → Except AsmRefusal (Instr × List Diag)
  | [] => .ok (i, [])
  | t :: _ => .error (.operands t)

/-- A statement with one operand, read by `rd`. -/
def asm1 {α : Type} (rd : Text → Except AsmRefusal α) (k : α → Instr) :
    List Text → Except AsmRefusal (Instr × List Diag)
  | [t] => (rd t).map fun x => (k x, [])
  | ts => .error (.operands ts.flatten)

/-- A statement with two operands. -/
def asm2 {α β : Type} (rd1 : Text → Except AsmRefusal α) (rd2 : Text → Except AsmRefusal β) (k : α → β → Instr) :
    List Text → Except AsmRefusal (Instr × List Diag)
  | [t, u] => (rd1 t).bind fun x => (rd2 u).map fun y => (k x y, [])
  | ts => .error (.operands ts.flatten)

/-- A statement with three operands. -/
def asm3 {α β γ : Type} (rd1 : Text → Except AsmRefusal α) (rd2 : Text → Except AsmRefusal β)
    (rd3 : Text → Except AsmRefusal γ) (k : α → β → γ → Instr) : List Text → Except AsmRefusal (Instr × List Diag)
  | [t, u, v] => (rd1 t).bind fun x => (rd2 u).bind fun y => (rd3 v).map fun z => (k x y z, [])
  | ts => .error (.operands ts.flatten)

/-- A statement of the jump class. -/
def asmJump (tab : SymTab) (k : Addr → Instr) : List Text → Except AsmRefusal (Instr × List Diag)
  | [t] => (jumpOperand tab t).map fun p => (k p.1, p.2)
  | ts => .error (.operands ts.flatten)

/-- The instruction a mnemonic and its operand words stand for, radices by R107. -/
def assembleInstr (tab : SymTab) (m : Mnemonic) : List Text → Except AsmRefusal (Instr × List Diag) :=
  match m with
  | .nop => asm0 .nop
  | .halt => asm0 .halt
  | .add => asm0 .add
  | .sub => asm0 .sub
  | .mul => asm0 .mul
  | .div => asm0 .div
  | .mod => asm0 .mod
  | .cmp => asm0 .cmp
  | .inc => asm1 parseReg .inc
  | .lda => asm1 parseDecWord .lda
  | .ldb => asm1 parseDecWord .ldb
  | .ldc => asm1 parseDecWord .ldc
  | .movRegReg => asm2 parseReg parseReg .movRegReg
  | .movRegImm => asm3 parseReg parseHexWord parseHexWord .movRegImm
  | .load => asm2 parseHexWord parseReg .load
  | .store => asm2 parseHexWord parseReg .store
  | .loadA => asm1 parseHexWord .loadA
  | .storeA => asm1 parseHexWord .storeA
  | .load8A => asm1 parseHexWord .load8A
  | .store8A => asm1 parseHexWord .store8A
  | .movRegMem => asm2 parseReg parseHexWord .movRegMem
  | .movRegMem2 => asm2 parseReg parseHexWord .movRegMem2
  | .movMemReg => asm2 parseHexWord parseReg .movMemReg
  | .movMemImm => asm2 parseHexWord parseHexWord .movMemImm
  | .mov8MemImm => asm2 parseHexWord parseHexByte .mov8MemImm
  | .jmp => asmJump tab .jmp
  | .jz => asmJump tab .jz
  | .jnz => asmJump tab .jnz
  | .jn => asmJump tab .jn
  | .jp => asmJump tab .jp
  | .jeq => asmJump tab .jeq
  | .jgt => asmJump tab .jgt
  | .jlt => asmJump tab .jlt
  | .call => asmJump tab .call
  | .ret => asm0 .ret
  | .push => asm1 parseReg .push
  | .pop => asm1 parseReg .pop
  | .wait => asm1 parseDecByte .wait
  | .int => asm1 parseHexByte .int
  | .syscall => asm0 .syscall
  | .printa => asm0 .printa

/-- An instruction statement with its operand text cut into words (R104). -/
def assembleStmt (tab : SymTab) (m : Mnemonic) (operands : Text) : Except AsmRefusal (Instr × List Diag) :=
  match operandWords false (lexOperands [] operands) with
  | some ws => assembleInstr tab m ws
  | none => .error (.operands operands)

/-! ## Pass 2 (R227 to R232) -/

/-- What pass 2 carries from line to line. -/
structure Pass2 where
  cursor : Nat
  /-- The byte writes into memory, in order (R215, R228). -/
  image : List (Nat × Byte)
  diags : List Diag
  /-- Where pass 2's cursor stood at each label: `true(L)` of R236, kept for claims. It is no symbol table, and
  nothing reads it. -/
  reached : List (Text × Nat)
  deriving DecidableEq, Repr

/-- Bytes at consecutive addresses (R228). -/
def placeBytes (x : Nat) : List Byte → List (Nat × Byte)
  | [] => []
  | v :: vs => (x, v) :: placeBytes (x + 1) vs

/-- Emit an instruction at the cursor (R109, R228). -/
def Pass2.emit (p : Pass2) (i : Instr) (ds : List Diag) : Except AsmRefusal Pass2 :=
  (moveCursor p.cursor i.mnemonic.len).map fun k =>
    { p with cursor := k, image := p.image ++ placeBytes p.cursor (encode i), diags := p.diags ++ ds }

/-- A token pass 2 does not know: reported, no byte, no advance (R230). -/
def Pass2.skip (p : Pass2) (token : Text) : Pass2 := { p with diags := p.diags ++ [.unknownMnemonic token] }

/-- One statement of pass 2 (R227 to R231); a `.db` line is an unrecognized token (R230; D28, entry 31). -/
def Pass2.stmt (tab : SymTab) (p : Pass2) : Stmt → Except AsmRefusal Pass2
  | .empty => .ok p
  | .org operand => (orgOperand operand).map fun v => { p with cursor := v.toNat }
  | .db content => .ok (p.skip (firstToken content))
  | .instr m operands =>
    match assembleStmt tab m operands with
    | .ok (i, ds) => p.emit i ds
    | .error e => .error e
  | .unknown t => .ok (p.skip t)

/-- Note where the cursor stands at a label; the symbol table is not written (R227). -/
def Pass2.pastLabel (p : Pass2) : Option Text → Pass2
  | some name => { p with reached := p.reached ++ [(name, p.cursor)] }
  | none => p

/-- One line of pass 2 (R231). -/
def Pass2.line (tab : SymTab) (p : Pass2) (l : Text) : Except AsmRefusal Pass2 :=
  (p.pastLabel (splitLine l).1).stmt tab (lineStmt l)

/-- Pass 2 over the lines in order (R231). -/
def Pass2.lines (tab : SymTab) (p : Pass2) : List Text → Except AsmRefusal Pass2
  | [] => .ok p
  | l :: ls =>
    match p.line tab l with
    | .ok q => Pass2.lines tab q ls
    | .error e => .error e

/-- Pass 2 starts at the origin (R227). -/
def Pass2.start (origin : Addr) : Pass2 := ⟨origin.toNat, [], [], []⟩

/-! ## Assembly (R215, R232, R235) and the launch of an assembled program (R284) -/

/-- What the resolver yields. -/
structure Assembly where
  symtab : SymTab
  image : List (Nat × Byte)
  cursor : Nat
  /-- Pass 1's diagnostics, then pass 2's. -/
  diags : List Diag
  reached : List (Text × Nat)
  deriving DecidableEq, Repr

/-- Pass 1 to completion, then pass 2 to completion, over the same lines (R232). -/
def assembleWith (size : Mnemonic → Nat) (origin : Addr) (ls : List Text) : Except AsmRefusal Assembly :=
  match (Pass1.start origin).lines size ls with
  | .error e => .error e
  | .ok p =>
    match (Pass2.start origin).lines p.symtab ls with
    | .error e => .error e
    | .ok q => .ok ⟨p.symtab, q.image, q.cursor, p.diags ++ q.diags, q.reached⟩

/-- The resolver with the hardware's size table. -/
def assemble (origin : Addr) (ls : List Text) : Except AsmRefusal Assembly := assembleWith instrSize origin ls

/-- The engine's state when an assembled source is launched at `base` (R284). -/
def boot (origin base : Addr) (ls : List Text) : Except AsmRefusal State :=
  (assemble origin ls).map fun r => State.launch r.image base

/-- A statement that well-formed source does not hold: `mov_reg_imm` and `.db` (R237). -/
def Stmt.drifts : Stmt → Bool
  | .db _ => true
  | .instr m _ => m == .movRegImm
  | .empty | .org _ | .unknown _ => false

/-- Well-formed source (R237): it is not refused, both passes report nothing, and no line drifts. -/
def wellFormedSource (origin : Addr) (ls : List Text) : Bool :=
  match assemble origin ls with
  | .ok r => decide (r.diags = []) && ls.all (fun l => !(lineStmt l).drifts)
  | .error _ => false

end Sys2Proof.Machine
end

