-- ==== Sys2Proof/Safety.lean ====
section
/-! DEFINITION. The terms claims use: frames (what an instruction leaves alone), the invariant, the ends of a run
(70_reset R286), which instruction writes what (10_state R21, R24, R26, R28; 20_memory R51), and the drift of labels
(48_symbol_resolver R236). -/

namespace Sys2Proof.Machine

/-! ## Frames -/

/-- No register changed. -/
def SameRegs (s t : State) : Prop := ∀ r, t.getReg r = s.getReg r

/-- No register but `r` changed. -/
def SameRegsBut (r : Reg) (s t : State) : Prop := ∀ q, q ≠ r → t.getReg q = s.getReg q

/-- No flag changed. -/
def SameFlags (s t : State) : Prop := t.z = s.z ∧ t.n = s.n

/-- No byte of memory changed. -/
def SameMem (s t : State) : Prop := ∀ x, t.mem.read x = s.mem.read x

/-- No byte of memory outside the `k` bytes from `x` on changed. -/
def SameMemOutside (x k : Nat) (s t : State) : Prop :=
  ∀ y, ¬(x ≤ y ∧ y < x + k) → t.mem.read y = s.mem.read y

/-- The run status and the latched `instr_base` are unchanged. -/
def SameControl (s t : State) : Prop := t.status = s.status ∧ t.instrBase = s.instrBase

/-- The output trace and the delay requests are unchanged. -/
def SameOutputs (s t : State) : Prop := t.out = s.out ∧ t.delays = s.delays

/-- At most `pc` and register `r` changed. -/
def OnlyReg (r : Reg) (s t : State) : Prop :=
  SameRegsBut r s t ∧ SameFlags s t ∧ t.stack = s.stack ∧ SameMem s t ∧ SameControl s t ∧ SameOutputs s t

/-- At most `pc` changed. -/
def OnlyPc (s t : State) : Prop :=
  SameRegs s t ∧ SameFlags s t ∧ t.stack = s.stack ∧ SameMem s t ∧ SameControl s t ∧ SameOutputs s t

/-- At most `pc` and the flags changed. -/
def OnlyFlags (s t : State) : Prop :=
  SameRegs s t ∧ t.stack = s.stack ∧ SameMem s t ∧ SameControl s t ∧ SameOutputs s t

/-- At most `pc` and the `k` bytes of memory from `x` on changed. -/
def OnlyMem (x k : Nat) (s t : State) : Prop :=
  SameRegs s t ∧ SameFlags s t ∧ t.stack = s.stack ∧ SameMemOutside x k s t ∧ SameControl s t ∧ SameOutputs s t

/-- At most `pc` and the stack changed. -/
def OnlyStack (s t : State) : Prop :=
  SameRegs s t ∧ SameFlags s t ∧ SameMem s t ∧ SameControl s t ∧ SameOutputs s t

/-- At most `pc` and `status` changed. -/
def OnlyStatus (s t : State) : Prop :=
  SameRegs s t ∧ SameFlags s t ∧ t.stack = s.stack ∧ SameMem s t ∧ t.instrBase = s.instrBase ∧ SameOutputs s t

/-- At most `pc` and the outputs changed. -/
def OnlyOutputs (s t : State) : Prop :=
  SameRegs s t ∧ SameFlags s t ∧ t.stack = s.stack ∧ SameMem s t ∧ SameControl s t

/-- `pc` stands past the whole instruction, modulo 2^16 (R24, R25). -/
def PcPast (m : Mnemonic) (s t : State) : Prop := t.pc.toNat = (s.pc.toNat + m.len) % 65536

/-! ## The invariant and the ends of a run -/

/-- Memory is in canonical form, and `Z` and `N` are not both set, which no `cmp` and no reset can do (R130). -/
def State.Inv (s : State) : Prop := s.mem.wf = true ∧ ¬(s.z = true ∧ s.n = true)

/-- The run has ended (R286). -/
def State.Ended (s : State) : Prop := s.status ≠ .running

/-- The run has ended normally (R286). -/
def State.EndedNormally (s : State) : Prop := s.status = .halted

/-- The run has ended on a fault (R286). -/
def State.EndedOnFault (s : State) : Prop := ∃ r, s.status = .faulted r

/-! ## Which instruction writes what -/

/-- The registers an instruction may write (R21; `int` writes all of them when it resets, R198). -/
def writesReg (i : Instr) (q : Reg) : Prop :=
  match i with
  | .add | .sub | .mul | .div | .mod => q = .a
  | .lda _ | .loadA _ | .load8A _ => q = .a
  | .ldb _ => q = .b
  | .ldc _ => q = .c
  | .inc r | .movRegReg r _ | .movRegImm r _ _ | .load _ r | .movRegMem r _ | .movRegMem2 r _ | .pop r => r = .reg q
  | .int v => v = Params.intReset
  | _ => False

/-- The instructions that may write the flags: `cmp`, and `int` when it resets (R26). -/
def writesFlags (i : Instr) : Prop := i = .cmp ∨ i = .int Params.intReset

/-- The instructions that may write `pc` after moving past themselves (R24). -/
def writesPc (i : Instr) : Prop :=
  (∃ addr, i ∈ [Instr.jmp addr, .jz addr, .jnz addr, .jn addr, .jp addr, .jeq addr, .jgt addr, .jlt addr, .call addr]) ∨
    i = .ret ∨ i = .int Params.intReset

/-- The six store instructions, the only ones that write memory (R51). -/
def isStore : Instr → Prop
  | .store _ _ | .storeA _ | .store8A _ | .movMemReg _ _ | .movMemImm _ _ | .mov8MemImm _ _ => True
  | _ => False

/-- The instructions that may change the stack: `call`, `ret`, `push`, `pop`, and `int` when it resets (R28). -/
def usesStack (i : Instr) : Prop :=
  (∃ addr, i = .call addr) ∨ i = .ret ∨ (∃ r, i = .push r) ∨ (∃ r, i = .pop r) ∨ i = .int Params.intReset

/-- The instructions that may append an output event (R35). -/
def isOutput : Instr → Prop
  | .printa | .syscall | .int _ => True
  | _ => False

/-- The instructions with a register letter that the engine may find bad: those that raise `UnknownRegister` (R250),
with their register operands in encoding order. -/
def regOperands : Instr → List RegOperand
  | .inc r | .push r | .pop r | .load _ r | .store _ r | .movMemReg _ r => [r]
  | .movRegImm r _ _ | .movRegMem r _ | .movRegMem2 r _ => [r]
  | .movRegReg d r => [d, r]
  | _ => []

/-! ## Drift of labels (R236) -/

/-- The drift after a statement, from the drift before it: pass 1's cursor less pass 2's. -/
def Stmt.drift (d : Int) : Stmt → Int
  | .empty => d
  | .org _ => 0
  | .db content => d + dbCount content
  | .instr m _ => if m = .movRegImm then d - 2 else d
  | .unknown _ => d + 1

/-- The labels of the lines in order, each with the drift at it. -/
def labelDrifts (d : Int) : List Text → List (Text × Int)
  | [] => []
  | l :: ls =>
    match (splitLine l).1 with
    | some name => (name, d) :: labelDrifts ((lineStmt l).drift d) ls
    | none => labelDrifts ((lineStmt l).drift d) ls

end Sys2Proof.Machine
end

