-- ==== Sys2Proof/WellFormed.lean ====
section
/-! DEFINITION. Well-formed instructions: those some byte sequence decodes to. Every address, immediate and byte
operand is legal (30_encoding R99); the one check is that an operand called `bad` names no register (R9, R95). -/

namespace Sys2Proof

/-- `bad k` stands only for a byte that is no register letter (R9). -/
def RegOperand.wf : RegOperand → Bool
  | .reg _ => true
  | .bad k => (Machine.Params.regOfCode k).isNone

/-- An instruction whose register operands are well-formed. -/
def Instr.wf : Instr → Bool
  | .inc r | .load _ r | .store _ r | .movMemReg _ r | .push r | .pop r => r.wf
  | .movRegImm r _ _ | .movRegMem r _ | .movRegMem2 r _ => r.wf
  | .movRegReg d s => d.wf && s.wf
  | .nop | .halt | .add | .sub | .mul | .div | .mod | .cmp | .ret | .syscall | .printa => true
  | .lda _ | .ldb _ | .ldc _ | .loadA _ | .storeA _ | .load8A _ | .store8A _ => true
  | .movMemImm _ _ | .mov8MemImm _ _ | .wait _ | .int _ => true
  | .jmp _ | .jz _ | .jnz _ | .jn _ | .jp _ | .jeq _ | .jgt _ | .jlt _ | .call _ => true

end Sys2Proof
end

