-- ==== Sys2Proof/Certificates/Slice0/Obligations.lean ====
section
/-! DEFINITION. The statements for the provers. Statements whose docstring names a decision D<n> of
92_eei_decisions.md rest on the spec's own choice of that number (the log entry named beside it), not on its
source. -/

open Sys2Proof Sys2Proof.Machine

/-! ## Encoding -/

/-- Decoding an encoded well-formed instruction gives it back, whatever bytes follow (30_encoding sections 1 to 3; the
opcode bytes are decision D1, entry 2). -/
def Obligations.DecodeOfEncodeIsTheInstruction : Prop :=
  ∀ (i : Instr) (rest : List Byte), i.wf = true → decode (CodeWindow.ofBytes (encode i ++ rest)) = .ok i

/-- What the decoder answers is well-formed and its encoding is the bytes read, so no operand bit is dropped or
misplaced (30_encoding sections 1 to 3; D1, entry 2). -/
def Obligations.DecodedBytesAreTheEncoding : Prop :=
  ∀ (w : CodeWindow) (i : Instr), decode w = .ok i →
    i.wf = true ∧ encode i = w.bytes.take i.mnemonic.len

/-- Exactly the bytes from 0x29 up are illegal opcodes, refused with the byte (30_encoding section 4; D1, entry 2). -/
def Obligations.IllegalOpcodeBytesAreRefused : Prop :=
  ∀ w : CodeWindow, decode w = .error (.unknownOpcode w.b0) ↔ 0x29 ≤ w.b0.toNat

/-- Decoding depends on the instruction's own bytes only, and the first byte alone fixes the mnemonic and so the
length (30_encoding sections 1 and 5). -/
def Obligations.DecodingReadsTheInstructionsBytesOnly : Prop :=
  ∀ (w w' : CodeWindow) (i : Instr), decode w = .ok i →
    (w.bytes.take i.mnemonic.len = w'.bytes.take i.mnemonic.len → decode w' = .ok i) ∧
    (w.b0 = w'.b0 → ∃ i', decode w' = .ok i' ∧ i'.mnemonic = i.mnemonic)

/-- The opcode map is injective (00_scope section 6 asks for it; the values are D1, entry 2). -/
def Obligations.OpcodeMapIsInjective : Prop :=
  ∀ m m' : Mnemonic, m.opcode = m'.opcode → m = m'

/-- Every 16-bit operand has its high byte at the lower address, in what is encoded and in what is decoded (R52). -/
def Obligations.OperandsAreHighByteFirst : Prop :=
  (∀ v : Word, ∃ h l : Byte, h.toNat = v.toNat / 256 ∧ l.toNat = v.toNat % 256 ∧
    (∀ k ∈ [Instr.lda, .ldb, .ldc, .loadA, .storeA, .load8A, .store8A, .jmp, .jz, .jnz, .jn, .jp, .jeq, .jgt, .jlt,
        .call], encodeOperands (k v) = [h, l]) ∧
    (∀ k ∈ [Instr.load, .store, .movMemReg], ∀ r, ∃ q, encodeOperands (k v r) = [h, l, q]) ∧
    (∀ k ∈ [Instr.movRegMem, .movRegMem2], ∀ r, ∃ q, encodeOperands (k r v) = [q, h, l]) ∧
    (∀ b, encodeOperands (.mov8MemImm v b) = [h, l, b]) ∧
    (∀ u, ∃ x y, encodeOperands (.movMemImm v u) = [h, l, x, y] ∧ encodeOperands (.movMemImm u v) = [x, y, h, l]) ∧
    (∀ r u, ∃ q x y, encodeOperands (.movRegImm r v u) = [q, h, l, x, y] ∧
      encodeOperands (.movRegImm r u v) = [q, x, y, h, l])) ∧
  (∀ w : CodeWindow, ∃ v12 v23 v34 v45 : Word,
    v12.toNat = w.b1.toNat * 256 + w.b2.toNat ∧ v23.toNat = w.b2.toNat * 256 + w.b3.toNat ∧
    v34.toNat = w.b3.toNat * 256 + w.b4.toNat ∧ v45.toNat = w.b4.toNat * 256 + w.b5.toNat ∧
    (∀ p ∈ [(Mnemonic.lda, Instr.lda), (.ldb, .ldb), (.ldc, .ldc), (.loadA, .loadA), (.storeA, .storeA),
        (.load8A, .load8A), (.store8A, .store8A), (.jmp, .jmp), (.jz, .jz), (.jnz, .jnz), (.jn, .jn), (.jp, .jp),
        (.jeq, .jeq), (.jgt, .jgt), (.jlt, .jlt), (.call, .call)], decodeOperands p.1 w = p.2 v12) ∧
    (∀ p ∈ [(Mnemonic.load, Instr.load), (.store, .store), (.movMemReg, .movMemReg)],
      ∃ r, decodeOperands p.1 w = p.2 v12 r) ∧
    (∀ p ∈ [(Mnemonic.movRegMem, Instr.movRegMem), (.movRegMem2, .movRegMem2)],
      ∃ r, decodeOperands p.1 w = p.2 r v23) ∧
    decodeOperands .mov8MemImm w = .mov8MemImm v12 w.b3 ∧
    decodeOperands .movMemImm w = .movMemImm v12 v34 ∧
    ∃ r, decodeOperands .movRegImm w = .movRegImm r v23 v45)

/-- The length table in full; an instruction has as many bytes as it says; pass 2 moves its cursor by them and puts the
encoding's bytes at consecutive addresses from it; the engine moves past them, but where the instruction writes `pc`;
pass 1's table differs at `mov_reg_imm` only (30_encoding section 1; 10_state section 2; 48_symbol_resolver sections 2
and 3). The length 6 of `mov_reg_imm` is D5 (entry 16), that of `push` and `pop` D4 (entry 22), the kept difference of
`SIZE` D6 (entry 31), `ret` on the empty stack the spec's inference (entry 22). -/
def Obligations.EncodedLengthIsLen : Prop :=
  (∀ m ∈ [Mnemonic.nop, .halt, .add, .sub, .mul, .div, .mod, .cmp, .ret, .syscall, .printa], m.len = 1) ∧
  (∀ m ∈ [Mnemonic.inc, .push, .pop, .wait, .int], m.len = 2) ∧
  (∀ m ∈ [Mnemonic.lda, .ldb, .ldc, .movRegReg, .loadA, .storeA, .load8A, .store8A, .jmp, .jz, .jnz, .jn, .jp, .jeq,
    .jgt, .jlt, .call], m.len = 3) ∧
  (∀ m ∈ [Mnemonic.load, .store, .movRegMem, .movRegMem2, .movMemReg, .mov8MemImm], m.len = 4) ∧
  Mnemonic.movMemImm.len = 5 ∧ Mnemonic.movRegImm.len = 6 ∧
  (∀ i : Instr, (encode i).length = i.mnemonic.len) ∧
  (∀ (p q : Pass2) (i : Instr) (ds : List Diag), p.emit i ds = .ok q →
    q.cursor = p.cursor + i.mnemonic.len ∧
    q.image = p.image ++ ((encode i).zipIdx p.cursor).map (fun x => (x.2, x.1))) ∧
  (∀ (i : Instr) (s t : State), exec i s = .next t →
    (¬writesPc i ∨ (i = .ret ∧ s.stack = []) → PcPast i.mnemonic s t) ∧
    (∀ addr, i ∈ [Instr.jz addr, .jnz addr, .jn addr, .jp addr, .jeq addr, .jgt addr, .jlt addr] →
      t.pc ≠ addr → PcPast i.mnemonic s t)) ∧
  (∀ m : Mnemonic, m ≠ .movRegImm → instrSize m = m.len) ∧ instrSize .movRegImm ≠ Mnemonic.movRegImm.len

/-- The opcode map in full, from mnemonic to byte and from byte to what decodes; the register letters in full; and words
written out in the spec's table of examples (30_encoding sections 2, 3 and 6; the opcode bytes are D1, entry 2, the
letter codes D2, entry 3). -/
def Obligations.WordsOfTheSpecDecode : Prop :=
  (∀ p ∈ [((0x00 : Byte), Mnemonic.nop), (0x01, .halt), (0x02, .add), (0x03, .sub), (0x04, .mul), (0x05, .div),
      (0x06, .mod), (0x07, .cmp), (0x08, .inc), (0x09, .lda), (0x0A, .ldb), (0x0B, .ldc), (0x0C, .movRegReg),
      (0x0D, .movRegImm), (0x0E, .load), (0x0F, .store), (0x10, .loadA), (0x11, .storeA), (0x12, .load8A),
      (0x13, .store8A), (0x14, .movRegMem), (0x15, .movRegMem2), (0x16, .movMemReg), (0x17, .movMemImm),
      (0x18, .mov8MemImm), (0x19, .jmp), (0x1A, .jz), (0x1B, .jnz), (0x1C, .jn), (0x1D, .jp), (0x1E, .jeq),
      (0x1F, .jgt), (0x20, .jlt), (0x21, .call), (0x22, .ret), (0x23, .push), (0x24, .pop), (0x25, .wait),
      (0x26, .int), (0x27, .syscall), (0x28, .printa)],
    p.2.opcode = p.1 ∧ ∀ w : CodeWindow, w.b0 = p.1 → ∃ i, decode w = .ok i ∧ i.mnemonic = p.2) ∧
  (∀ k : Byte, decodeReg k =
    if k = 0x61 then .reg .a else if k = 0x62 then .reg .b else if k = 0x63 then .reg .c else .bad k) ∧
  encodeReg (.reg .a) = 0x61 ∧ encodeReg (.reg .b) = 0x62 ∧ encodeReg (.reg .c) = 0x63 ∧
  decode ⟨0x08, 0x62, 0, 0, 0, 0⟩ = .ok (.inc (.reg .b)) ∧
  decode ⟨0x09, 0x00, 0x0A, 0, 0, 0⟩ = .ok (.lda 10) ∧
  decode ⟨0x0D, 0x63, 0x80, 0x00, 0x12, 0x34⟩ = .ok (.movRegImm (.reg .c) 0x8000 0x1234) ∧
  decode ⟨0x0F, 0x80, 0x02, 0x63, 0, 0⟩ = .ok (.store 0x8002 (.reg .c)) ∧
  decode ⟨0x17, 0x80, 0x00, 0x12, 0x34, 0⟩ = .ok (.movMemImm 0x8000 0x1234) ∧
  decode ⟨0x1B, 0x90, 0x09, 0, 0, 0⟩ = .ok (.jnz 0x9009) ∧
  decode ⟨0x24, 0x63, 0, 0, 0, 0⟩ = .ok (.pop (.reg .c)) ∧
  decode ⟨0x26, 0x12, 0, 0, 0, 0⟩ = .ok (.int 0x12)

/-! ## The step -/

/-- One step: nothing unless Running; else the handler of the instruction that the bytes at `pc`, taken modulo 2^16,
decode to, whose mnemonic the byte at `pc` selects, or UnknownOpcode (R37). `exec` itself moves `pc` past the
instruction, so `step` adds nothing around it. -/
def Obligations.StepRunsTheDecodedInstruction : Prop :=
  ∀ s : State,
    s.window.bytes = [0, 1, 2, 3, 4, 5].map (fun k => s.mem.read ((s.pc.toNat + k) % 65536)) ∧
    (s.status = .running → ∀ i, decode s.window = .ok i →
      s.mem.read s.pc.toNat = i.mnemonic.opcode ∧ step s = exec i s) ∧
    (s.status = .running → ∀ k, decode s.window = .error (.unknownOpcode k) →
      (∀ m : Mnemonic, s.mem.read s.pc.toNat ≠ m.opcode) ∧
      ∃ t, step s = .next t ∧ t.status = .faulted (.unknownOpcode k s.pc) ∧ k = s.mem.read s.pc.toNat ∧
        t.pc.toNat = (s.pc.toNat + 1) % 65536 ∧ OnlyStatus s t) ∧
    (s.status ≠ .running → ∀ t, step s ≠ .next t)

/-- An unknown opcode byte stops the engine, records the byte and its address, leaves `pc` one further and changes
nothing else (R251). -/
def Obligations.UnknownOpcodeStopsTheEngine : Prop :=
  ∀ s : State, s.status = .running → Mnemonic.ofOpcode (s.mem.read s.pc.toNat) = none →
    ∃ t, step s = .next t ∧ t.status = .faulted (.unknownOpcode (s.mem.read s.pc.toNat) s.pc) ∧
      t.pc.toNat = (s.pc.toNat + 1) % 65536 ∧ OnlyStatus s t

/-- A running engine always has a next state, whatever bytes are in memory: nothing is refused and nothing is stuck
(10_state section 7, 60_exceptions section 1; that a delay ends is D22, entry 9, that
`mov_reg_mem2` has an effect D13, entry 17). -/
def Obligations.RunningEngineAlwaysSteps : Prop :=
  ∀ s : State, s.status = .running → ∃ t, step s = .next t

/-- A step that faults changes `pc` and `status` only, and no step follows it (R257). -/
def Obligations.FaultHasNoDataEffect : Prop :=
  ∀ (s t : State) (r : FaultRecord), step s = .next t → t.status = .faulted r →
    OnlyStatus s t ∧ ∀ u, step t ≠ .next u

/-! ## Invariants, reset and launch -/

/-- Every step keeps memory canonical and keeps `Z` and `N` from being both set (20_memory sections 1 and 4;
40_arithmetic section 2, cmp; the canonical form is the model's, entry 6). -/
def Obligations.InvariantIsKeptByEveryStep : Prop :=
  ∀ s t : State, s.Inv → step s = .next t → t.Inv

/-- The invariant holds at reset. -/
def Obligations.InvariantHoldsAtReset : Prop := State.reset.Inv

/-- Reset gives A, B and C the value 0, at power-on and whenever it is applied (R22). -/
def Obligations.ResetClearsTheRegisters : Prop :=
  ∀ r : Reg, State.reset.getReg r = 0 ∧ ∀ (s : State) (base : Addr), (s.applyReset base).getReg r = 0

/-- The external Reset sets everything but memory: `pc` and the latched base, registers, flags, stack, status and out
(70_reset section 1; status, fault record and out are D24, entry 7; emptying the delay record is the model's choice,
entry 8); `State.reset` has the default base (D24, entry 7), and its memory, which Reset does not touch, reads 0 as the
host's zero fill before it leaves it (70_reset section 2; that it is zero is the model's choice, entry 6). -/
def Obligations.ResetSetsEverythingButMemory : Prop :=
  (∀ (s : State) (base : Addr),
    let t := s.applyReset base
    t.pc = base ∧ t.instrBase = base ∧ (∀ r, t.getReg r = 0) ∧ t.z = false ∧ t.n = false ∧ t.stack = [] ∧
      t.status = .running ∧ t.out = [] ∧ t.delays = [] ∧ SameMem s t) ∧
  (∀ s : State, s.mem = [] → s.applyReset 0x9000 = State.reset) ∧
  ∀ x, State.reset.mem.read x = 0

/-- A launch zero-fills memory, writes the image in order and resets: the machine is at `base`, running, with `base`
latched, registers, flags, stack, trace and delay record cleared, in the invariant, and every byte is the last one
written to it or 0 (70_reset sections 1 and 2; D24, entry 7; the delay record is the model's, entry 8). -/
def Obligations.LaunchWritesTheImageAndResets : Prop :=
  ∀ (image : List (Nat × Byte)) (base : Addr), (∀ p ∈ image, p.1 < 65536) →
    let t := State.launch image base
    t.Inv ∧ t.pc = base ∧ t.instrBase = base ∧ t.status = .running ∧ (∀ r, t.getReg r = 0) ∧ t.z = false ∧
      t.n = false ∧ t.stack = [] ∧ t.out = [] ∧ t.delays = [] ∧
      ∀ x, t.mem.read x = ((image.reverse.find? (fun p => p.1 == x)).map (·.2)).getD 0

/-! ## Rules about all instructions -/

/-- How `pc` moves: past the whole instruction, but for jumps and calls (the absolute operand), `ret` on a non-empty
stack (the popped value) and the resetting `int` (`instr_base`); a conditional jump not taken goes past itself
(10_state section 2). That `ret` on the empty stack goes past itself is the spec's inference (entry 22), what the
resetting `int` does D20 (entry 24), the wrap of `pc` D17 (entry 20). When each conditional jump is taken is
FlagJumpsReadTheirFlag and DirectJumpsCompareBWithC. -/
def Obligations.ProgramCounterMovesAsListed : Prop :=
  ∀ (i : Instr) (s t : State), exec i s = .next t →
    (¬writesPc i → PcPast i.mnemonic s t) ∧
    (∀ addr, i = .jmp addr ∨ i = .call addr → t.pc = addr) ∧
    (∀ addr, i ∈ [Instr.jz addr, .jnz addr, .jn addr, .jp addr, .jeq addr, .jgt addr, .jlt addr] →
      PcPast i.mnemonic s t ∨ t.pc = addr) ∧
    (i = .ret → s.stack = [] → PcPast .ret s t) ∧
    (∀ st v, i = .ret → s.stack = st ++ [v] → t.pc = v) ∧
    (i = .int Params.intReset → t.pc = s.instrBase)

/-- No instruction writes the latched `instr_base` (10_state section 5). -/
def Obligations.InstrBaseIsNeverWritten : Prop :=
  ∀ s t : State, step s = .next t → t.instrBase = s.instrBase

/-- Only `cmp` and the resetting `int` write a flag (10_state section 3; D9, entry 12). -/
def Obligations.FlagsAreWrittenByCmpAndResetOnly : Prop :=
  ∀ (i : Instr) (s t : State), exec i s = .next t → ¬writesFlags i → SameFlags s t

/-- Only the six stores write memory (20_memory section 1). -/
def Obligations.MemoryIsWrittenByStoresOnly : Prop :=
  ∀ (i : Instr) (s t : State), exec i s = .next t → ¬isStore i → SameMem s t

/-- Only `call`, `ret`, `push`, `pop` and the resetting `int` touch the stack, by one entry at its top but for the
reset (10_state section 4; what the resetting `int` clears is D20, entry 24). -/
def Obligations.StackIsUsedAsListed : Prop :=
  ∀ (i : Instr) (s t : State), exec i s = .next t →
    (¬usesStack i → t.stack = s.stack) ∧
    (i ≠ .int Params.intReset → t.stack = s.stack ∨ (∃ v, t.stack = s.stack ++ [v]) ∨ ∃ v, s.stack = t.stack ++ [v])

/-- The output trace only grows, by at most one event a step, and only through `printa`, `syscall` and `int`
(10_state section 6; D21, entry 25). -/
def Obligations.OutputTraceOnlyGrows : Prop :=
  ∀ (i : Instr) (s t : State), exec i s = .next t →
    ∃ l, t.out = s.out ++ l ∧ l.length ≤ 1 ∧ (¬isOutput i → l = [])

/-- An instruction writes no register but those 10_state section 1 lists for it (the destination of `mov_reg_reg` is
D14, entry 18; what the resetting `int` clears is D20, entry 24). -/
def Obligations.RegistersAreWrittenAsListed : Prop :=
  ∀ (i : Instr) (s t : State) (q : Reg), exec i s = .next t → ¬writesReg i q → t.getReg q = s.getReg q

/-- `halt`, `syscall` with the exit number and the resetting `int` set the status Halted, no step follows, and nothing
else stops the engine normally (60_exceptions section 5). That the resetting `int` stops the engine is D20 (entry
24); the numbers are D19 and D20 (entries 23 and 24). -/
def Obligations.NormalStopsAreThree : Prop :=
  (∀ (i : Instr) (s : State), i = .halt ∨ (i = .syscall ∧ s.a = Params.sysExit) ∨ i = .int Params.intReset →
    ∃ t, exec i s = .next t ∧ t.status = .halted ∧ ∀ u, step t ≠ .next u) ∧
  ∀ (i : Instr) (s t : State), exec i s = .next t → s.status = .running → t.status = .halted →
    i = .halt ∨ (i = .syscall ∧ s.a = Params.sysExit) ∨ i = .int Params.intReset

/-- Where a running instruction's fault comes from and what it records (60_exceptions sections 1 and 3; D23, entry
26): a bad register letter, the first in encoding order; a call number in A that is none of the five; an interrupt
number that is none of the three (the known numbers are D19 and D20, entries 23 and 24). -/
def Obligations.FaultsComeFromThreeSources : Prop :=
  ∀ (i : Instr) (s t : State) (r : FaultRecord), exec i s = .next t → s.status = .running → t.status = .faulted r →
    PcPast i.mnemonic s t ∧
    ((∃ k, (regOperands i).find? (fun o => o matches .bad _) = some (.bad k) ∧ r = .unknownRegister k s.pc) ∨
     (i = .syscall ∧ s.a ∉ [Params.sysNop, Params.sysWait, Params.sysPrintNum, Params.sysPrintChar, Params.sysExit] ∧
       r = .unknownSyscall s.a s.pc) ∨
     ∃ v, i = .int v ∧ v ∉ [Params.intPrint, Params.intWait, Params.intReset] ∧ r = .unknownInterrupt v s.pc)

/-! ## Arithmetic and comparison (40_arithmetic) -/

/-- `add`, `sub` and `mul` write A with the result modulo 2^16 and nothing else but `pc` (wrap-around and operand
order are D8, entry 11; no flag is D9, entry 12). -/
def Obligations.AddSubMulWrapIntoA : Prop :=
  ∀ s : State,
    (∃ t, exec .add s = .next t ∧ t.a.toNat = (s.a.toNat + s.b.toNat) % 65536 ∧ PcPast .add s t ∧ OnlyReg .a s t) ∧
    (∃ t, exec .sub s = .next t ∧ t.a.toNat = (s.a.toNat + 65536 - s.b.toNat) % 65536 ∧ PcPast .sub s t ∧
      OnlyReg .a s t) ∧
    ∃ t, exec .mul s = .next t ∧ t.a.toNat = (s.a.toNat * s.b.toNat) % 65536 ∧ PcPast .mul s t ∧ OnlyReg .a s t

/-- `div` and `mod` write A with the unsigned quotient or remainder, and for B = 0 leave A unchanged; nothing else but
`pc` changes (the unsigned reading is D7, entry 10; operand order D8, entry 11). -/
def Obligations.DivModWriteAUnlessBIsZero : Prop :=
  ∀ s : State,
    (∃ t, exec .div s = .next t ∧ (s.b ≠ 0 → t.a.toNat = s.a.toNat / s.b.toNat) ∧ (s.b = 0 → t.a = s.a) ∧
      PcPast .div s t ∧ OnlyReg .a s t) ∧
    ∃ t, exec .mod s = .next t ∧ (s.b ≠ 0 → t.a.toNat = s.a.toNat % s.b.toNat) ∧ (s.b = 0 → t.a = s.a) ∧
      PcPast .mod s t ∧ OnlyReg .a s t

/-- `inc` adds 1 modulo 2^16 to its register and changes nothing else but `pc` (D8, entry 11). -/
def Obligations.IncAddsOneModulo : Prop :=
  ∀ (s : State) (r : Reg), ∃ t, exec (.inc (.reg r)) s = .next t ∧
    (t.getReg r).toNat = ((s.getReg r).toNat + 1) % 65536 ∧ PcPast .inc s t ∧ OnlyReg r s t

/-- `cmp` sets Z to (C = B) and N to (B < C) and changes nothing else but `pc` (the unsigned `<` is D7, entry 10). -/
def Obligations.CmpSetsBothFlags : Prop :=
  ∀ s : State, ∃ t, exec .cmp s = .next t ∧ (t.z = true ↔ s.c = s.b) ∧ (t.n = true ↔ s.b.toNat < s.c.toNat) ∧
    PcPast .cmp s t ∧ OnlyFlags s t

/-! ## Immediate loads and register moves (41_register_moves) -/

/-- `lda`, `ldb` and `ldc` write their immediate to A, B and C and change nothing else but `pc`. -/
def Obligations.ImmediateLoadsWriteTheirRegister : Prop :=
  ∀ (s : State) (imm : Word),
    (∃ t, exec (.lda imm) s = .next t ∧ t.a = imm ∧ PcPast .lda s t ∧ OnlyReg .a s t) ∧
    (∃ t, exec (.ldb imm) s = .next t ∧ t.b = imm ∧ PcPast .ldb s t ∧ OnlyReg .b s t) ∧
    ∃ t, exec (.ldc imm) s = .next t ∧ t.c = imm ∧ PcPast .ldc s t ∧ OnlyReg .c s t

/-- `mov_reg_reg` copies the second register to the first (D14, entry 18); `mov_reg_imm` writes its immediate and
ignores its address (D5, entry 16); nothing else but `pc` changes. -/
def Obligations.RegisterMovesWriteTheFirstLetter : Prop :=
  ∀ (s : State) (d r : Reg) (addr : Addr) (imm : Word),
    (∃ t, exec (.movRegReg (.reg d) (.reg r)) s = .next t ∧ t.getReg d = s.getReg r ∧ PcPast .movRegReg s t ∧
      OnlyReg d s t) ∧
    ∃ t, exec (.movRegImm (.reg d) addr imm) s = .next t ∧ t.getReg d = imm ∧ PcPast .movRegImm s t ∧ OnlyReg d s t

/-! ## Loads and stores (42_memory_access) -/

/-- In range, the 16-bit loads write their register with the byte at the address times 256 plus the next byte, and
change nothing else but `pc` (width D12, entry 15; byte order D10, entry 13; `mov_reg_mem2` D13, entry 17). -/
def Obligations.WordLoadsReadTwoBytes : Prop :=
  ∀ (s : State) (addr : Addr) (r : Reg), addr.toNat + 2 ≤ 65536 →
    (∀ i ∈ [Instr.load addr (.reg r), .movRegMem (.reg r) addr, .movRegMem2 (.reg r) addr], ∃ t, exec i s = .next t ∧
      (t.getReg r).toNat = (s.mem.read addr.toNat).toNat * 256 + (s.mem.read (addr.toNat + 1)).toNat ∧
      PcPast i.mnemonic s t ∧ OnlyReg r s t) ∧
    ∃ t, exec (.loadA addr) s = .next t ∧
      t.a.toNat = (s.mem.read addr.toNat).toNat * 256 + (s.mem.read (addr.toNat + 1)).toNat ∧
      PcPast .loadA s t ∧ OnlyReg .a s t

/-- `load8_a` writes A with the zero-extended byte, at every address, and changes nothing else but `pc` (D12, entry
15). -/
def Obligations.ByteLoadZeroExtends : Prop :=
  ∀ (s : State) (addr : Addr), ∃ t, exec (.load8A addr) s = .next t ∧
    t.a.toNat = (s.mem.read addr.toNat).toNat ∧ PcPast .load8A s t ∧ OnlyReg .a s t

/-- In range, the 16-bit stores put the high byte at the operand address and the low byte after it, and change no
other byte and nothing else but `pc` (width D12, entry 15; byte order D10, entry 13). -/
def Obligations.WordStoresWriteTwoBytes : Prop :=
  ∀ (s : State) (addr : Addr) (v : Word) (r : Reg), s.mem.wf = true → addr.toNat + 2 ≤ 65536 →
    ∀ p ∈ [(Instr.store addr (.reg r), s.getReg r), (.movMemReg addr (.reg r), s.getReg r), (.storeA addr, s.a),
        (.movMemImm addr v, v)],
      ∃ t, exec p.1 s = .next t ∧ (t.mem.read addr.toNat).toNat = p.2.toNat / 256 ∧
        (t.mem.read (addr.toNat + 1)).toNat = p.2.toNat % 256 ∧ PcPast p.1.mnemonic s t ∧ OnlyMem addr.toNat 2 s t

/-- The 8-bit stores put one byte at the operand address, at every address, and change no other byte and nothing else
but `pc`: `store8_a` the low byte of A (D12, entry 15), `mov8_mem_imm` its immediate. -/
def Obligations.ByteStoresWriteOneByte : Prop :=
  ∀ (s : State) (addr : Addr) (v : Byte), s.mem.wf = true →
    (∃ t, exec (.store8A addr) s = .next t ∧ (t.mem.read addr.toNat).toNat = s.a.toNat % 256 ∧ PcPast .store8A s t ∧
      OnlyMem addr.toNat 1 s t) ∧
    ∃ t, exec (.mov8MemImm addr v) s = .next t ∧ t.mem.read addr.toNat = v ∧ PcPast .mov8MemImm s t ∧
      OnlyMem addr.toNat 1 s t

/-- An access that does not fit the memory is skipped: no read, no write, only `pc` moves (20_memory section 4). For any
memory size at the access itself, and for the hardware's size at the instructions that can fail the check. With that
size the only case is a 16-bit access at 0xFFFF, whose skip as a whole is D11 (entry 14); the widths are D12 (entry
15), `mov_reg_mem2` is D13 (entry 17). -/
def Obligations.OutOfRangeAccessIsSkipped : Prop :=
  (∀ (s : State) (size : Nat) (r : Reg) (addr : Addr) (v : Word) (b : Byte),
    (size < addr.toNat + 2 → s.loadWord size r addr = s ∧ s.storeWord size addr v = s) ∧
    (size < addr.toNat + 1 → s.loadByte size r addr = s ∧ s.storeByte size addr b = s)) ∧
  ∀ (s : State) (addr : Addr) (v : Word) (r : Reg), 65536 < addr.toNat + 2 →
    ∀ i ∈ [Instr.load addr (.reg r), .store addr (.reg r), .movRegMem (.reg r) addr, .movRegMem2 (.reg r) addr,
        .movMemReg addr (.reg r), .loadA addr, .storeA addr, .movMemImm addr v],
      ∃ t, exec i s = .next t ∧ PcPast i.mnemonic s t ∧ OnlyPc s t

/-- A load after a store to the same address sees the stored value, and byte loads see its high and low bytes
(20_memory sections 2 and 6; D10, entry 13). -/
def Obligations.LoadSeesTheEarlierStore : Prop :=
  ∀ (s t : State) (addr : Addr) (r q : Reg), s.mem.wf = true → addr.toNat + 2 ≤ 65536 →
    exec (.store addr (.reg r)) s = .next t →
    (∃ u, exec (.load addr (.reg q)) t = .next u ∧ u.getReg q = s.getReg r) ∧
    (∃ u, exec (.load8A addr) t = .next u ∧ u.a.toNat = (s.getReg r).toNat / 256) ∧
    ∃ u, exec (.load8A (addr + 1)) t = .next u ∧ u.a.toNat = (s.getReg r).toNat % 256

/-- A byte stored into code is what the next fetch reads there, the opcode byte included (20_memory section 6). -/
def Obligations.StoreIsSeenByTheNextFetch : Prop :=
  ∀ (s t : State) (addr : Addr) (v : Byte), s.mem.wf = true → exec (.mov8MemImm addr v) s = .next t →
    (addr = t.pc → t.window.b0 = v) ∧ (addr = t.pc + 1 → t.window.b1 = v) ∧
    (∀ m, addr = t.pc → Mnemonic.ofOpcode v = some m → s.status = .running → step t = exec (decodeOperands m t.window) t)

/-! ## Control transfer (43_control_transfer) -/

/-- `jz`, `jnz`, `jn` and `jp` go to the operand when Z = 1, Z = 0, N = 1, N = 0, else past the instruction; nothing
but `pc` changes (the conditions are D15, entry 19). -/
def Obligations.FlagJumpsReadTheirFlag : Prop :=
  ∀ (s : State) (addr : Addr),
    ∀ p ∈ [(Instr.jz addr, s.z), (.jnz addr, !s.z), (.jn addr, s.n), (.jp addr, !s.n)],
      ∃ t, exec p.1 s = .next t ∧ (p.2 = true → t.pc = addr) ∧ (p.2 = false → PcPast p.1.mnemonic s t) ∧ OnlyPc s t

/-- `jmp` always goes to the operand; `jeq`, `jgt` and `jlt` compare B with C as they are now; nothing but `pc`
changes, and no flag is read (the order and the unsigned reading are D16 and D7, entries 19 and 10). -/
def Obligations.DirectJumpsCompareBWithC : Prop :=
  ∀ (s : State) (addr : Addr),
    (∃ t, exec (.jmp addr) s = .next t ∧ t.pc = addr ∧ OnlyPc s t) ∧
    (∃ t, exec (.jeq addr) s = .next t ∧ (s.b = s.c → t.pc = addr) ∧ (s.b ≠ s.c → PcPast .jeq s t) ∧ OnlyPc s t) ∧
    (∃ t, exec (.jgt addr) s = .next t ∧ (s.c.toNat < s.b.toNat → t.pc = addr) ∧
      (s.b.toNat ≤ s.c.toNat → PcPast .jgt s t) ∧ OnlyPc s t) ∧
    ∃ t, exec (.jlt addr) s = .next t ∧ (s.b.toNat < s.c.toNat → t.pc = addr) ∧
      (s.c.toNat ≤ s.b.toNat → PcPast .jlt s t) ∧ OnlyPc s t

/-- `call` pushes the address after its operand, modulo 2^16, and jumps; nothing else changes (the wrap is D17, the
unbounded stack D18, entries 20 and 21). -/
def Obligations.CallPushesTheReturnAddress : Prop :=
  ∀ (s : State) (addr : Addr), ∃ t v, exec (.call addr) s = .next t ∧ t.pc = addr ∧ t.stack = s.stack ++ [v] ∧
    v.toNat = (s.pc.toNat + 3) % 65536 ∧ OnlyStack s t

/-- `ret` pops the top of the stack into `pc`, and on the empty stack is a no-op after its fetch; nothing else
changes (that "counter unchanged" means past the `ret` is the spec's inference, entry 22). -/
def Obligations.RetPopsIntoPc : Prop :=
  ∀ s : State, ∃ t, exec .ret s = .next t ∧ OnlyStack s t ∧
    (∀ st v, s.stack = st ++ [v] → t.pc = v ∧ t.stack = st) ∧
    (s.stack = [] → t.stack = [] ∧ PcPast .ret s t)

/-! ## Stack (44_stack) -/

/-- `push` appends its register; `pop` moves the top into its register, and on the empty stack does nothing; nothing
else but `pc` changes (all of it is D4, entry 22; the unbounded stack D18, entry 21). -/
def Obligations.PushAndPopMoveTheTop : Prop :=
  ∀ (s : State) (r : Reg),
    (∃ t, exec (.push (.reg r)) s = .next t ∧ t.stack = s.stack ++ [s.getReg r] ∧ PcPast .push s t ∧ OnlyStack s t) ∧
    (∀ st v, s.stack = st ++ [v] → ∃ t, exec (.pop (.reg r)) s = .next t ∧ t.getReg r = v ∧ t.stack = st ∧
      PcPast .pop s t ∧ SameRegsBut r s t ∧ SameFlags s t ∧ SameMem s t ∧ SameControl s t ∧ SameOutputs s t) ∧
    (s.stack = [] → ∃ t, exec (.pop (.reg r)) s = .next t ∧ PcPast .pop s t ∧ OnlyPc s t)

/-- With a bounded stack that is full, `call` and `push` raise StackOverflow with the value, push nothing and do not
jump; below the bound they act as with no bound (60_exceptions section 1, D18, entry 21). -/
def Obligations.BoundedStackOverflows : Prop :=
  ∀ (s : State) (d : Nat) (addr : Addr) (r : Reg),
    (s.stack.length = d →
      ((s.call (some d) addr).status = .faulted (.stackOverflow (s.pc + 3) s.pc) ∧
        PcPast .call s (s.call (some d) addr) ∧ OnlyStatus s (s.call (some d) addr)) ∧
      ((s.pushReg (some d) (.reg r)).status = .faulted (.stackOverflow (s.getReg r) s.pc) ∧
        PcPast .push s (s.pushReg (some d) (.reg r)) ∧ OnlyStatus s (s.pushReg (some d) (.reg r)))) ∧
    (s.stack.length < d →
      exec (.call addr) s = .next (s.call (some d) addr) ∧
      exec (.push (.reg r)) s = .next (s.pushReg (some d) (.reg r)))

/-! ## System instructions (45_system) -/

/-- `nop` moves `pc` only (D3, entry 22); `wait` moves `pc` and issues one delay request of its operand, which the
model records (D22, entries 8 and 9); `halt` stops the engine past itself and changes nothing else. -/
def Obligations.NopWaitAndHaltMoveOn : Prop :=
  ∀ (s : State) (v : Byte),
    (∃ t, exec .nop s = .next t ∧ PcPast .nop s t ∧ OnlyPc s t) ∧
    (∃ t, exec (.wait v) s = .next t ∧ t.delays = s.delays ++ [v.toNat] ∧ t.out = s.out ∧ PcPast .wait s t ∧
      OnlyOutputs s t) ∧
    ∃ t, exec .halt s = .next t ∧ t.status = .halted ∧ PcPast .halt s t ∧ OnlyStatus s t

/-- `printa` appends A as a number to the output trace and changes nothing else but `pc` (the trace is D21, entry
25). -/
def Obligations.PrintaAppendsA : Prop :=
  ∀ s : State, ∃ t, exec .printa s = .next t ∧ t.out = s.out ++ [.num s.a] ∧ t.delays = s.delays ∧
    PcPast .printa s t ∧ OnlyOutputs s t

/-- `int` 0x11 prints A, 0x12 delays by B, 0x13 restores the reset state, keeps memory and the outputs, and stops
(numbers and effects but 0x12's are D20, entry 24; the delay record is the model's, entry 8). -/
def Obligations.IntPrintsWaitsOrResets : Prop :=
  ∀ s : State,
    (∃ t, exec (.int 0x11) s = .next t ∧ t.out = s.out ++ [.num s.a] ∧ t.delays = s.delays ∧ PcPast .int s t ∧
      OnlyOutputs s t) ∧
    (∃ t, exec (.int 0x12) s = .next t ∧ t.delays = s.delays ++ [s.b.toNat] ∧ t.out = s.out ∧ PcPast .int s t ∧
      OnlyOutputs s t) ∧
    ∃ t, exec (.int 0x13) s = .next t ∧ t.pc = s.instrBase ∧ (∀ r, t.getReg r = 0) ∧ t.z = false ∧ t.n = false ∧
      t.stack = [] ∧ t.status = .halted ∧ t.instrBase = s.instrBase ∧ SameMem s t ∧ SameOutputs s t

/-- `syscall` on A: 0 does nothing, 1 delays by B, 2 prints B as a number, 3 prints the low byte of B as a character,
4 stops; nothing else but `pc` changes (numbers but 1 are D19, entry 23; the delay record is the model's, entry 8). -/
def Obligations.SyscallDispatchesOnA : Prop :=
  ∀ s : State,
    (s.a = 0 → ∃ t, exec .syscall s = .next t ∧ PcPast .syscall s t ∧ OnlyPc s t) ∧
    (s.a = 1 → ∃ t, exec .syscall s = .next t ∧ t.delays = s.delays ++ [s.b.toNat] ∧ t.out = s.out ∧
      PcPast .syscall s t ∧ OnlyOutputs s t) ∧
    (s.a = 2 → ∃ t, exec .syscall s = .next t ∧ t.out = s.out ++ [.num s.b] ∧ t.delays = s.delays ∧
      PcPast .syscall s t ∧ OnlyOutputs s t) ∧
    (s.a = 3 → ∃ t v, exec .syscall s = .next t ∧ t.out = s.out ++ [.chr v] ∧ v.toNat = s.b.toNat % 256 ∧
      t.delays = s.delays ∧ PcPast .syscall s t ∧ OnlyOutputs s t) ∧
    (s.a = 4 → ∃ t, exec .syscall s = .next t ∧ t.status = .halted ∧ PcPast .syscall s t ∧ OnlyStatus s t)

/-- An unknown call or interrupt number stops the engine on its fault, with `pc` past the instruction and nothing else
changed (R253). -/
def Obligations.UnknownNumbersStopTheEngine : Prop :=
  (∀ s : State, s.a ∉ [Params.sysNop, Params.sysWait, Params.sysPrintNum, Params.sysPrintChar, Params.sysExit] →
    ∃ t k x, exec .syscall s = .next t ∧ t.status = .faulted (.unknownSyscall k x) ∧
      t.pc.toNat = (s.pc.toNat + 1) % 65536 ∧ OnlyStatus s t) ∧
  ∀ (s : State) (v : Byte), v ∉ [Params.intPrint, Params.intWait, Params.intReset] →
    ∃ t k x, exec (.int v) s = .next t ∧ t.status = .faulted (.unknownInterrupt k x) ∧
      t.pc.toNat = (s.pc.toNat + 2) % 65536 ∧ OnlyStatus s t

/-- A bad register letter stops the engine with that letter and the opcode byte's address, `pc` past the instruction
and nothing else changed, whatever the address operand; of two letters the first bad one is recorded (60_exceptions
section 1; the record and `pc` are D23, entry 26). -/
def Obligations.BadLetterStopsTheEngine : Prop :=
  ∀ (s : State) (k : Byte) (addr : Addr) (imm : Word) (o : RegOperand) (r : Reg),
    ∀ i ∈ [Instr.inc (.bad k), .push (.bad k), .pop (.bad k), .load addr (.bad k), .store addr (.bad k),
        .movMemReg addr (.bad k), .movRegMem (.bad k) addr, .movRegMem2 (.bad k) addr, .movRegImm (.bad k) addr imm,
        .movRegReg (.bad k) o, .movRegReg (.reg r) (.bad k)],
      ∃ t, exec i s = .next t ∧ t.status = .faulted (.unknownRegister k s.pc) ∧ PcPast i.mnemonic s t ∧ OnlyStatus s t

/-! ## The resolver (48_symbol_resolver) -/

/-- The size table of pass 1 in full: `LEN`, but 4 for `mov_reg_imm` (48_symbol_resolver section 2). That the 4 is kept
is D6 (entry 31); the shape, and so the size, of `push` and `pop` is D4 (entry 22). -/
def Obligations.SizeTableUndercountsMovRegImm : Prop :=
  (∀ m : Mnemonic, instrSize m = if m = .movRegImm then 4 else m.len) ∧
  (∀ m ∈ [Mnemonic.nop, .halt, .add, .sub, .mul, .div, .mod, .cmp, .ret, .syscall, .printa], instrSize m = 1) ∧
  (∀ m ∈ [Mnemonic.inc, .push, .pop, .wait, .int], instrSize m = 2) ∧
  (∀ m ∈ [Mnemonic.lda, .ldb, .ldc, .movRegReg, .loadA, .storeA, .load8A, .store8A, .jmp, .jz, .jnz, .jn, .jp, .jeq,
    .jgt, .jlt, .call], instrSize m = 3) ∧
  (∀ m ∈ [Mnemonic.load, .store, .movRegMem, .movRegMem2, .movMemReg, .mov8MemImm, .movRegImm], instrSize m = 4) ∧
  instrSize .movMemImm = 5

/-- A line that defines a label records it at the cursor from before the line, whatever directive stands on the line,
and then handles the rest of the line as its content (R219). -/
def Obligations.LabelIsRecordedBeforeItsLine : Prop :=
  ∀ (size : Mnemonic → Nat) (p q : Pass1) (l name : Text), (splitLine l).1 = some name → p.line size l = .ok q →
    ∃ a : Addr, a.toNat = p.cursor ∧ q.symtab = p.symtab ++ [(name, a)] ∧
      ∃ u, p.stmt size (lineStmt l) = .ok u ∧ u.cursor = q.cursor ∧ u.diags = q.diags

/-- A known mnemonic moves pass 1 by its size; an unknown one by 1 with a warning and no refusal, and in pass 2 it is
reported and nothing else happens (48_symbol_resolver sections 2 and 3; that a cursor past the end is refused is D27,
entry 30). -/
def Obligations.UnknownMnemonicIsAWarning : Prop :=
  ∀ (size : Mnemonic → Nat) (p : Pass1) (t : Text),
    (∀ m u, p.cursor + size m ≤ 65536 → p.stmt size (.instr m u) = .ok { p with cursor := p.cursor + size m }) ∧
    (p.cursor + 1 ≤ 65536 →
      p.stmt size (.unknown t) = .ok { p with cursor := p.cursor + 1, diags := p.diags ++ [.unknownSize t] }) ∧
    ∀ (tab : SymTab) (q : Pass2),
      q.stmt tab (.unknown t) = .ok { q with diags := q.diags ++ [.unknownMnemonic t] }

/-- The operand of a jump or call: a `0x` literal is its value; a name in the symbol table is exactly the address
recorded, which decoding the emitted bytes gives back; any other name is a report and the placeholder 0x0000: two zero
bytes after the opcode, the cursor moved by three as usual (R229). -/
def Obligations.JumpOperandIsTheRecordedAddress : Prop :=
  ∀ p ∈ [(Mnemonic.jmp, Instr.jmp), (.jz, .jz), (.jnz, .jnz), (.jn, .jn), (.jp, .jp), (.jeq, .jeq), (.jgt, .jgt),
      (.jlt, .jlt), (.call, .call)],
    ∀ (tab : SymTab) (t : Text),
      (∀ v, has0x t = true → parseHexWord t = .ok v → assembleInstr tab p.1 [t] = .ok (p.2 v, [])) ∧
      (∀ v, has0x t = false → tab.find t = some v → assembleInstr tab p.1 [t] = .ok (p.2 v, []) ∧
        decode (CodeWindow.ofBytes (encode (p.2 v))) = .ok (p.2 v)) ∧
      (has0x t = false → tab.find t = none →
        assembleInstr tab p.1 [t] = .ok (p.2 0, [.unresolvedLabel t]) ∧
        ∀ q : Pass2, q.cursor + 3 ≤ 65536 → ∃ u, q.emit (p.2 0) [.unresolvedLabel t] = .ok u ∧
          u.cursor = q.cursor + 3 ∧ u.diags = q.diags ++ [.unresolvedLabel t] ∧
          u.image = q.image ++ [(q.cursor, p.1.opcode), (q.cursor + 1, 0), (q.cursor + 2, 0)])

/-- `.org 0x9100`, a line with a one-byte mnemonic and a line with any instruction: the first one's opcode byte is at
0x9100 and the bytes of the second follow from 0x9101, and nothing else is written, whatever the origin (R234). Where
the second line has no label, what its statement alone assembles to is enough. -/
def Obligations.OriginDirectivePlacesTheNextByte : Prop :=
  ∀ (origin : Addr) (l : Text) (k : Mnemonic) (u : Text), lineStmt l = .instr k u →
    ∀ m ∈ [Mnemonic.nop, .halt, .add, .sub, .mul, .div, .mod, .cmp, .ret, .syscall, .printa],
      (∀ r, assemble origin [".org 0x9100".toList, spelling m, l] = .ok r →
        ∃ i ds, assembleStmt r.symtab k u = .ok (i, ds) ∧
          r.image = (0x9100, m.opcode) :: ((encode i).zipIdx 0x9101).map (fun x => (x.2, x.1))) ∧
      ∀ i ds, (splitLine l).1 = none → assembleStmt [] k u = .ok (i, ds) →
        ∃ r, assemble origin [".org 0x9100".toList, spelling m, l] = .ok r ∧ r.diags = ds ∧
          r.image = (0x9100, m.opcode) :: ((encode i).zipIdx 0x9101).map (fun x => (x.2, x.1))

/-- What an instruction statement assembles to is a well-formed instruction of its mnemonic, so its bytes decode to it
(48_symbol_resolver section 3; that wrong letters are refused is D26, entry 30). -/
def Obligations.AssembledStatementIsWellFormed : Prop :=
  ∀ (tab : SymTab) (m : Mnemonic) (operands : Text) (i : Instr) (ds : List Diag),
    assembleStmt tab m operands = .ok (i, ds) →
      i.mnemonic = m ∧ i.wf = true ∧ ∀ rest, decode (CodeWindow.ofBytes (encode i ++ rest)) = .ok i

/-- How far a label's recorded address lies from the statement it labels: the drift since the last `.org`, -2 for each
`mov_reg_imm`, the value count of each `.db`, +1 for each unknown mnemonic, and 0 after an `.org`
(48_symbol_resolver section 4, the spec's inference; D6 and D28, entry 31). -/
def Obligations.LabelDriftIsTheSumOfItsCauses : Prop :=
  ∀ (origin : Addr) (ls : List Text) (r : Assembly), assemble origin ls = .ok r →
    r.reached.length = r.symtab.length ∧ (labelDrifts 0 ls).length = r.symtab.length ∧
    r.symtab.map (fun p => (p.1, (p.2.toNat : Int))) =
      List.zipWith (fun q d => (q.1, (q.2 : Int) + d.2)) r.reached (labelDrifts 0 ls)

/-- In well-formed source every label's recorded address is where pass 2 stands at the statement it labels, and the
image is written at addresses that exist (48_symbol_resolver section 4; D27, entry 30). -/
def Obligations.LabelsOfWellFormedSourceAreTrue : Prop :=
  ∀ (origin : Addr) (ls : List Text), wellFormedSource origin ls = true →
    ∃ r, assemble origin ls = .ok r ∧ r.symtab.map (fun p => (p.1, p.2.toNat)) = r.reached ∧
      ∀ p ∈ r.image, p.1 < 65536

/-- A directive line. `.org` with a hexadecimal literal, `0x` or not, sets the cursor of either pass to it and does
nothing else. `.db` moves pass 1 by its count of values, which ends at the first item that is no value; in pass 2 it is
reported and does nothing else (48_symbol_resolver sections 2 and 3; the count is D26, entry 29, the refusal of a
cursor past the end D27, entry 30, the report D28, entry 31). That a lower-case and an upper-case hexadecimal digit are
read alike, as in `fF`, is the model's choice (entry 29). -/
def Obligations.DirectivesMoveTheCursor : Prop :=
  (∀ (size : Mnemonic → Nat) (tab : SymTab) (p : Pass1) (q : Pass2) (t : Text) (v : Addr), parseHexWord (trim t) = .ok v →
    ∀ c, isSpace c = true → p.stmt size (.org (c :: t)) = .ok { p with cursor := v.toNat } ∧
      q.stmt tab (.org (c :: t)) = .ok { q with cursor := v.toNat }) ∧
  (∀ (size : Mnemonic → Nat) (tab : SymTab) (p : Pass1) (q : Pass2) (t : Text),
    (p.cursor + dbCount t ≤ 65536 → p.stmt size (.db t) = .ok { p with cursor := p.cursor + dbCount t }) ∧
    q.stmt tab (.db t) = .ok { q with diags := q.diags ++ [.unknownMnemonic (firstToken t)] }) ∧
  lineStmt "x: .org 0x9200 ; far".toList = .org " 0x9200".toList ∧ lineStmt ".org fF".toList = .org " fF".toList ∧
  (parseHexWord "0x9200".toList).toOption = some 0x9200 ∧ (parseHexWord "fF".toList).toOption = some 0xFF ∧
  lineStmt " .db 1,2,0xFF // three".toList = .db ".db 1,2,0xFF".toList ∧ dbCount ".db 1,2,0xFF".toList = 3 ∧
  dbCount ".db 7 0x1 x 5".toList = 2 ∧ dbCount ".db".toList = 0
end

