-- ==== Sys2Proof/Laws/Decode.lean ====
section
/-! SUPPORT. Bytes of a word, register letters and the opcode map. -/

namespace Sys2Proof

theorem hi8_toNat (v : Word) : (hi8 v).toNat = v.toNat / 256 := by
  have := v.isLt
  simp [hi8, Nat.shiftRight_eq_div_pow]
  omega

theorem lo8_toNat (v : Word) : (lo8 v).toNat = v.toNat % 256 := by
  simp [lo8]

theorem joinBytes_toNat (h l : Byte) : (joinBytes h l).toNat = h.toNat * 256 + l.toNat := by
  rw [joinBytes, BitVec.toNat_append, ← Nat.shiftLeft_add_eq_or_of_lt l.isLt, Nat.shiftLeft_eq]

@[simp] theorem joinBytes_hi8_lo8 (v : Word) : joinBytes (hi8 v) (lo8 v) = v := by
  apply BitVec.eq_of_toNat_eq
  rw [joinBytes_toNat, hi8_toNat, lo8_toNat]
  omega

@[simp] theorem hi8_joinBytes (h l : Byte) : hi8 (joinBytes h l) = h := by
  apply BitVec.eq_of_toNat_eq
  have := l.isLt
  rw [hi8_toNat, joinBytes_toNat]
  omega

@[simp] theorem lo8_joinBytes (h l : Byte) : lo8 (joinBytes h l) = l := by
  apply BitVec.eq_of_toNat_eq
  have := l.isLt
  rw [lo8_toNat, joinBytes_toNat]
  omega

/-- A letter byte is that of the register it names. -/
theorem Machine.Params.regCode_of_regOfCode {k : Byte} {r : Reg} (h : Params.regOfCode k = some r) :
    Params.regCode r = k := by
  simpa using List.find?_some h

@[simp] theorem Machine.Params.regOfCode_regCode (r : Reg) : Params.regOfCode (Params.regCode r) = some r := by
  cases r <;> decide

/-- Reading back the letter byte of a well-formed register operand. -/
theorem decodeReg_encodeReg {o : RegOperand} (h : o.wf = true) : decodeReg (encodeReg o) = o := by
  cases o with
  | reg r => simp [encodeReg, decodeReg]
  | bad k =>
    have hk : Machine.Params.regOfCode k = none := by simpa [RegOperand.wf] using h
    simp [encodeReg, decodeReg, hk]

/-- The letter byte of what a byte decodes to is that byte. -/
@[simp] theorem encodeReg_decodeReg (k : Byte) : encodeReg (decodeReg k) = k := by
  unfold decodeReg
  split
  · rename_i r h
    exact Machine.Params.regCode_of_regOfCode h
  · rfl

/-- A decoded register operand is well-formed. -/
@[simp] theorem decodeReg_wf (k : Byte) : (decodeReg k).wf = true := by
  unfold decodeReg
  split
  · rfl
  · rename_i h
    simp [RegOperand.wf, h]

@[simp] theorem Mnemonic.ofOpcode_opcode (m : Mnemonic) : Mnemonic.ofOpcode m.opcode = some m := by
  cases m <;> decide

/-- An opcode byte is that of the mnemonic it selects. -/
theorem Mnemonic.opcode_of_ofOpcode {k : Byte} {m : Mnemonic} (h : Mnemonic.ofOpcode k = some m) : m.opcode = k := by
  simpa using List.find?_some h

@[simp] theorem mnemonic_decodeOperands (m : Mnemonic) (w : CodeWindow) : (decodeOperands m w).mnemonic = m := by
  cases m <;> rfl

/-- What the decoder answers: the operands of the mnemonic the first byte selects. -/
theorem decode_eq_ok {w : CodeWindow} {i : Instr} (h : decode w = .ok i) :
    ∃ m, Mnemonic.ofOpcode w.b0 = some m ∧ i = decodeOperands m w := by
  unfold decode at h
  split at h
  · rename_i m hm
    exact ⟨m, hm, by simpa using h.symm⟩
  · cases h

/-- Why the decoder refuses: the first byte selects no mnemonic. -/
theorem decode_eq_error {w : CodeWindow} {e : DecodeError} (h : decode w = .error e) :
    Mnemonic.ofOpcode w.b0 = none ∧ e = .unknownOpcode w.b0 := by
  unfold decode at h
  split at h
  · cases h
  · rename_i hm
    exact ⟨hm, by simpa using h.symm⟩

end Sys2Proof
end

