-- ==== Sys2Proof/Laws/Memory.lean ====
section
/-! SUPPORT. Memory: a read after a write, the canonical form of every memory operation, and the bytes of a 16-bit
access. -/

namespace Sys2Proof.Machine

theorem Memory.cons_read (x y : Nat) (v : Byte) (m : Memory) (h : m.read x = 0) :
    (Memory.cons x v m).read y = if y = x then v else m.read y := by
  unfold Memory.cons
  split <;> rename_i hv
  · split <;> simp_all
  · rfl

/-- The canonical form from a lower bound up to a smaller one. -/
theorem Memory.wfFrom_mono {lo lo' : Nat} {m : Memory} (hm : m.wfFrom lo = true) (h : lo' ≤ lo) :
    m.wfFrom lo' = true := by
  cases m with
  | nil => rfl
  | cons c m =>
    obtain ⟨y, v⟩ := c
    simp only [Memory.wfFrom, Bool.and_eq_true, decide_eq_true_eq] at hm ⊢
    exact ⟨⟨⟨by omega, hm.1.1.2⟩, hm.1.2⟩, hm.2⟩

/-- Below its lower bound a canonical memory lists nothing. -/
theorem Memory.read_below {lo : Nat} {m : Memory} (hm : m.wfFrom lo = true) (x : Nat) (h : x < lo) : m.read x = 0 := by
  induction m generalizing lo with
  | nil => rfl
  | cons c m ih =>
    obtain ⟨y, v⟩ := c
    simp only [Memory.wfFrom, Bool.and_eq_true, decide_eq_true_eq] at hm
    have hne : x ≠ y := by omega
    simp only [Memory.read, if_neg hne]
    exact ih hm.2 (by omega)

/-- Reading after writing, from a lower bound. -/
theorem Memory.read_write_from {lo : Nat} {m : Memory} (hm : m.wfFrom lo = true) (x : Nat) (v : Byte) (y : Nat) :
    (m.write x v).read y = if y = x then v else m.read y := by
  induction m generalizing lo with
  | nil => exact Memory.cons_read x y v [] rfl
  | cons c m ih =>
    obtain ⟨z, u⟩ := c
    have hw := hm
    simp only [Memory.wfFrom, Bool.and_eq_true, decide_eq_true_eq] at hm
    simp only [Memory.write]
    split
    · rename_i hlt
      refine Memory.cons_read x y v _ ?_
      simp only [Memory.read, if_neg (show x ≠ z by omega)]
      exact Memory.read_below hm.2 x (by omega)
    · split
      · rename_i _ heq
        subst heq
        rw [Memory.cons_read x y v m (Memory.read_below hm.2 x (by omega))]
        simp only [Memory.read]
        split <;> rfl
      · rename_i _ hne
        simp only [Memory.read, ih hm.2]
        by_cases h1 : y = z
        · subst h1; simp [Ne.symm hne]
        · simp [h1]

/-- Reading after writing: the byte written at its address, every other byte as before. -/
theorem Memory.read_write {m : Memory} (hm : m.wf = true) (x : Nat) (v : Byte) (y : Nat) :
    (m.write x v).read y = if y = x then v else m.read y :=
  Memory.read_write_from hm x v y

theorem Memory.wfFrom_cons {lo x : Nat} {v : Byte} {m : Memory} (hm : m.wfFrom (x + 1) = true) (h1 : lo ≤ x)
    (h2 : x < Config.memSize) : (Memory.cons x v m).wfFrom lo = true := by
  unfold Memory.cons
  split
  · exact Memory.wfFrom_mono hm (by omega)
  · rename_i hv
    simpa [Memory.wfFrom, h1, h2, hm] using hv

theorem Memory.wfFrom_write {lo : Nat} {m : Memory} (hm : m.wfFrom lo = true) (x : Nat) (v : Byte) (h1 : lo ≤ x)
    (h2 : x < Config.memSize) : (m.write x v).wfFrom lo = true := by
  induction m generalizing lo with
  | nil => exact Memory.wfFrom_cons rfl h1 h2
  | cons c m ih =>
    obtain ⟨y, u⟩ := c
    have hw := hm
    simp only [Memory.wfFrom, Bool.and_eq_true, decide_eq_true_eq] at hm
    simp only [Memory.write]
    split
    · refine Memory.wfFrom_cons ?_ h1 h2
      simp only [Memory.wfFrom, Bool.and_eq_true, decide_eq_true_eq]
      exact ⟨⟨⟨by omega, hm.1.1.2⟩, hm.1.2⟩, hm.2⟩
    · split
      · rename_i _ heq
        subst heq
        exact Memory.wfFrom_cons hm.2 h1 h2
      · simp only [Memory.wfFrom, Bool.and_eq_true, decide_eq_true_eq]
        exact ⟨hm.1, ih hm.2 (by omega)⟩

/-- A byte write keeps the canonical form. -/
theorem Memory.wf_write {m : Memory} (hm : m.wf = true) {x : Nat} (v : Byte) (h : x < Config.memSize) :
    (m.write x v).wf = true :=
  Memory.wfFrom_write hm x v (Nat.zero_le x) h

/-- Writing a list of bytes at existing addresses keeps the canonical form. -/
theorem Memory.wf_writeAll {m : Memory} (hm : m.wf = true) (l : List (Nat × Byte))
    (h : ∀ p ∈ l, p.1 < Config.memSize) : (m.writeAll l).wf = true := by
  induction l generalizing m with
  | nil => exact hm
  | cons p l ih =>
    obtain ⟨x, v⟩ := p
    exact ih (Memory.wf_write hm v (h (x, v) (by simp))) fun q hq => h q (by simp [hq])

/-- A 16-bit write in range keeps the canonical form. -/
theorem Memory.wf_writeWord {m : Memory} (hm : m.wf = true) {addr : Addr} (v : Word)
    (h : addr.toNat + 2 ≤ Config.memSize) : (m.writeWord addr v).wf = true :=
  Memory.wf_write (Memory.wf_write hm _ (by omega)) _ (by omega)

/-- A 16-bit write changes the byte at its address and the byte after it, and no other. -/
theorem Memory.read_writeWord {m : Memory} (hm : m.wf = true) {addr : Addr} (v : Word)
    (h : addr.toNat + 2 ≤ Config.memSize) (y : Nat) :
    (m.writeWord addr v).read y =
      if y = addr.toNat + 1 then lo8 v else if y = addr.toNat then hi8 v else m.read y := by
  have h1 := Memory.wf_write hm (dataFirst Params.dataEndian v) (x := addr.toNat) (by omega)
  rw [Memory.writeWord, Memory.read_write h1, Memory.read_write hm]
  rfl

end Sys2Proof.Machine
end

