-- ==== Sys2Proof/Laws/State.lean ====
section
/-! SUPPORT. One lemma per field per state update, true by rfl, so that no later proof unfolds a record update. -/

namespace Sys2Proof.Machine

variable (s : State)

/-! ### `State.setPc` -/

@[simp] theorem State.setPc_pc (p : Addr) : (s.setPc p).pc = p := rfl
@[simp] theorem State.setPc_a (p : Addr) : (s.setPc p).a = s.a := rfl
@[simp] theorem State.setPc_b (p : Addr) : (s.setPc p).b = s.b := rfl
@[simp] theorem State.setPc_c (p : Addr) : (s.setPc p).c = s.c := rfl
@[simp] theorem State.setPc_z (p : Addr) : (s.setPc p).z = s.z := rfl
@[simp] theorem State.setPc_n (p : Addr) : (s.setPc p).n = s.n := rfl
@[simp] theorem State.setPc_stack (p : Addr) : (s.setPc p).stack = s.stack := rfl
@[simp] theorem State.setPc_status (p : Addr) : (s.setPc p).status = s.status := rfl
@[simp] theorem State.setPc_mem (p : Addr) : (s.setPc p).mem = s.mem := rfl
@[simp] theorem State.setPc_out (p : Addr) : (s.setPc p).out = s.out := rfl
@[simp] theorem State.setPc_instrBase (p : Addr) : (s.setPc p).instrBase = s.instrBase := rfl
@[simp] theorem State.setPc_delays (p : Addr) : (s.setPc p).delays = s.delays := rfl
@[simp] theorem State.setPc_getReg (p : Addr) (q : Reg) : (s.setPc p).getReg q = s.getReg q := by cases q <;> rfl

/-! ### `State.advance` -/

@[simp] theorem State.advance_pc (k : Nat) : (s.advance k).pc = s.pc + BitVec.ofNat 16 k := rfl
@[simp] theorem State.advance_a (k : Nat) : (s.advance k).a = s.a := rfl
@[simp] theorem State.advance_b (k : Nat) : (s.advance k).b = s.b := rfl
@[simp] theorem State.advance_c (k : Nat) : (s.advance k).c = s.c := rfl
@[simp] theorem State.advance_z (k : Nat) : (s.advance k).z = s.z := rfl
@[simp] theorem State.advance_n (k : Nat) : (s.advance k).n = s.n := rfl
@[simp] theorem State.advance_stack (k : Nat) : (s.advance k).stack = s.stack := rfl
@[simp] theorem State.advance_status (k : Nat) : (s.advance k).status = s.status := rfl
@[simp] theorem State.advance_mem (k : Nat) : (s.advance k).mem = s.mem := rfl
@[simp] theorem State.advance_out (k : Nat) : (s.advance k).out = s.out := rfl
@[simp] theorem State.advance_instrBase (k : Nat) : (s.advance k).instrBase = s.instrBase := rfl
@[simp] theorem State.advance_delays (k : Nat) : (s.advance k).delays = s.delays := rfl
@[simp] theorem State.advance_getReg (k : Nat) (q : Reg) : (s.advance k).getReg q = s.getReg q := by cases q <;> rfl

/-! ### `State.setFlags` -/

@[simp] theorem State.setFlags_pc (z n : Bool) : (s.setFlags z n).pc = s.pc := rfl
@[simp] theorem State.setFlags_a (z n : Bool) : (s.setFlags z n).a = s.a := rfl
@[simp] theorem State.setFlags_b (z n : Bool) : (s.setFlags z n).b = s.b := rfl
@[simp] theorem State.setFlags_c (z n : Bool) : (s.setFlags z n).c = s.c := rfl
@[simp] theorem State.setFlags_z (z n : Bool) : (s.setFlags z n).z = z := rfl
@[simp] theorem State.setFlags_n (z n : Bool) : (s.setFlags z n).n = n := rfl
@[simp] theorem State.setFlags_stack (z n : Bool) : (s.setFlags z n).stack = s.stack := rfl
@[simp] theorem State.setFlags_status (z n : Bool) : (s.setFlags z n).status = s.status := rfl
@[simp] theorem State.setFlags_mem (z n : Bool) : (s.setFlags z n).mem = s.mem := rfl
@[simp] theorem State.setFlags_out (z n : Bool) : (s.setFlags z n).out = s.out := rfl
@[simp] theorem State.setFlags_instrBase (z n : Bool) : (s.setFlags z n).instrBase = s.instrBase := rfl
@[simp] theorem State.setFlags_delays (z n : Bool) : (s.setFlags z n).delays = s.delays := rfl
@[simp] theorem State.setFlags_getReg (z n : Bool) (q : Reg) : (s.setFlags z n).getReg q = s.getReg q := by cases q <;> rfl

/-! ### `State.setStack` -/

@[simp] theorem State.setStack_pc (st : List Word) : (s.setStack st).pc = s.pc := rfl
@[simp] theorem State.setStack_a (st : List Word) : (s.setStack st).a = s.a := rfl
@[simp] theorem State.setStack_b (st : List Word) : (s.setStack st).b = s.b := rfl
@[simp] theorem State.setStack_c (st : List Word) : (s.setStack st).c = s.c := rfl
@[simp] theorem State.setStack_z (st : List Word) : (s.setStack st).z = s.z := rfl
@[simp] theorem State.setStack_n (st : List Word) : (s.setStack st).n = s.n := rfl
@[simp] theorem State.setStack_stack (st : List Word) : (s.setStack st).stack = st := rfl
@[simp] theorem State.setStack_status (st : List Word) : (s.setStack st).status = s.status := rfl
@[simp] theorem State.setStack_mem (st : List Word) : (s.setStack st).mem = s.mem := rfl
@[simp] theorem State.setStack_out (st : List Word) : (s.setStack st).out = s.out := rfl
@[simp] theorem State.setStack_instrBase (st : List Word) : (s.setStack st).instrBase = s.instrBase := rfl
@[simp] theorem State.setStack_delays (st : List Word) : (s.setStack st).delays = s.delays := rfl
@[simp] theorem State.setStack_getReg (st : List Word) (q : Reg) : (s.setStack st).getReg q = s.getReg q := by cases q <;> rfl

/-! ### `State.push` -/

@[simp] theorem State.push_pc (v : Word) : (s.push v).pc = s.pc := rfl
@[simp] theorem State.push_a (v : Word) : (s.push v).a = s.a := rfl
@[simp] theorem State.push_b (v : Word) : (s.push v).b = s.b := rfl
@[simp] theorem State.push_c (v : Word) : (s.push v).c = s.c := rfl
@[simp] theorem State.push_z (v : Word) : (s.push v).z = s.z := rfl
@[simp] theorem State.push_n (v : Word) : (s.push v).n = s.n := rfl
@[simp] theorem State.push_stack (v : Word) : (s.push v).stack = s.stack ++ [v] := rfl
@[simp] theorem State.push_status (v : Word) : (s.push v).status = s.status := rfl
@[simp] theorem State.push_mem (v : Word) : (s.push v).mem = s.mem := rfl
@[simp] theorem State.push_out (v : Word) : (s.push v).out = s.out := rfl
@[simp] theorem State.push_instrBase (v : Word) : (s.push v).instrBase = s.instrBase := rfl
@[simp] theorem State.push_delays (v : Word) : (s.push v).delays = s.delays := rfl
@[simp] theorem State.push_getReg (v : Word) (q : Reg) : (s.push v).getReg q = s.getReg q := by cases q <;> rfl

/-! ### `State.setMem` -/

@[simp] theorem State.setMem_pc (m : Memory) : (s.setMem m).pc = s.pc := rfl
@[simp] theorem State.setMem_a (m : Memory) : (s.setMem m).a = s.a := rfl
@[simp] theorem State.setMem_b (m : Memory) : (s.setMem m).b = s.b := rfl
@[simp] theorem State.setMem_c (m : Memory) : (s.setMem m).c = s.c := rfl
@[simp] theorem State.setMem_z (m : Memory) : (s.setMem m).z = s.z := rfl
@[simp] theorem State.setMem_n (m : Memory) : (s.setMem m).n = s.n := rfl
@[simp] theorem State.setMem_stack (m : Memory) : (s.setMem m).stack = s.stack := rfl
@[simp] theorem State.setMem_status (m : Memory) : (s.setMem m).status = s.status := rfl
@[simp] theorem State.setMem_mem (m : Memory) : (s.setMem m).mem = m := rfl
@[simp] theorem State.setMem_out (m : Memory) : (s.setMem m).out = s.out := rfl
@[simp] theorem State.setMem_instrBase (m : Memory) : (s.setMem m).instrBase = s.instrBase := rfl
@[simp] theorem State.setMem_delays (m : Memory) : (s.setMem m).delays = s.delays := rfl
@[simp] theorem State.setMem_getReg (m : Memory) (q : Reg) : (s.setMem m).getReg q = s.getReg q := by cases q <;> rfl

/-! ### `State.setStatus` -/

@[simp] theorem State.setStatus_pc (st : Status) : (s.setStatus st).pc = s.pc := rfl
@[simp] theorem State.setStatus_a (st : Status) : (s.setStatus st).a = s.a := rfl
@[simp] theorem State.setStatus_b (st : Status) : (s.setStatus st).b = s.b := rfl
@[simp] theorem State.setStatus_c (st : Status) : (s.setStatus st).c = s.c := rfl
@[simp] theorem State.setStatus_z (st : Status) : (s.setStatus st).z = s.z := rfl
@[simp] theorem State.setStatus_n (st : Status) : (s.setStatus st).n = s.n := rfl
@[simp] theorem State.setStatus_stack (st : Status) : (s.setStatus st).stack = s.stack := rfl
@[simp] theorem State.setStatus_status (st : Status) : (s.setStatus st).status = st := rfl
@[simp] theorem State.setStatus_mem (st : Status) : (s.setStatus st).mem = s.mem := rfl
@[simp] theorem State.setStatus_out (st : Status) : (s.setStatus st).out = s.out := rfl
@[simp] theorem State.setStatus_instrBase (st : Status) : (s.setStatus st).instrBase = s.instrBase := rfl
@[simp] theorem State.setStatus_delays (st : Status) : (s.setStatus st).delays = s.delays := rfl
@[simp] theorem State.setStatus_getReg (st : Status) (q : Reg) : (s.setStatus st).getReg q = s.getReg q := by cases q <;> rfl

/-! ### `State.halt` -/

@[simp] theorem State.halt_pc : (s.halt).pc = s.pc := rfl
@[simp] theorem State.halt_a : (s.halt).a = s.a := rfl
@[simp] theorem State.halt_b : (s.halt).b = s.b := rfl
@[simp] theorem State.halt_c : (s.halt).c = s.c := rfl
@[simp] theorem State.halt_z : (s.halt).z = s.z := rfl
@[simp] theorem State.halt_n : (s.halt).n = s.n := rfl
@[simp] theorem State.halt_stack : (s.halt).stack = s.stack := rfl
@[simp] theorem State.halt_status : (s.halt).status = .halted := rfl
@[simp] theorem State.halt_mem : (s.halt).mem = s.mem := rfl
@[simp] theorem State.halt_out : (s.halt).out = s.out := rfl
@[simp] theorem State.halt_instrBase : (s.halt).instrBase = s.instrBase := rfl
@[simp] theorem State.halt_delays : (s.halt).delays = s.delays := rfl
@[simp] theorem State.halt_getReg (q : Reg) : (s.halt).getReg q = s.getReg q := by cases q <;> rfl

/-! ### `State.raise` -/

@[simp] theorem State.raise_pc (r : FaultRecord) : (s.raise r).pc = s.pc := rfl
@[simp] theorem State.raise_a (r : FaultRecord) : (s.raise r).a = s.a := rfl
@[simp] theorem State.raise_b (r : FaultRecord) : (s.raise r).b = s.b := rfl
@[simp] theorem State.raise_c (r : FaultRecord) : (s.raise r).c = s.c := rfl
@[simp] theorem State.raise_z (r : FaultRecord) : (s.raise r).z = s.z := rfl
@[simp] theorem State.raise_n (r : FaultRecord) : (s.raise r).n = s.n := rfl
@[simp] theorem State.raise_stack (r : FaultRecord) : (s.raise r).stack = s.stack := rfl
@[simp] theorem State.raise_status (r : FaultRecord) : (s.raise r).status = .faulted r := rfl
@[simp] theorem State.raise_mem (r : FaultRecord) : (s.raise r).mem = s.mem := rfl
@[simp] theorem State.raise_out (r : FaultRecord) : (s.raise r).out = s.out := rfl
@[simp] theorem State.raise_instrBase (r : FaultRecord) : (s.raise r).instrBase = s.instrBase := rfl
@[simp] theorem State.raise_delays (r : FaultRecord) : (s.raise r).delays = s.delays := rfl
@[simp] theorem State.raise_getReg (r : FaultRecord) (q : Reg) : (s.raise r).getReg q = s.getReg q := by cases q <;> rfl

/-! ### `State.emit` -/

@[simp] theorem State.emit_pc (e : OutEvent) : (s.emit e).pc = s.pc := rfl
@[simp] theorem State.emit_a (e : OutEvent) : (s.emit e).a = s.a := rfl
@[simp] theorem State.emit_b (e : OutEvent) : (s.emit e).b = s.b := rfl
@[simp] theorem State.emit_c (e : OutEvent) : (s.emit e).c = s.c := rfl
@[simp] theorem State.emit_z (e : OutEvent) : (s.emit e).z = s.z := rfl
@[simp] theorem State.emit_n (e : OutEvent) : (s.emit e).n = s.n := rfl
@[simp] theorem State.emit_stack (e : OutEvent) : (s.emit e).stack = s.stack := rfl
@[simp] theorem State.emit_status (e : OutEvent) : (s.emit e).status = s.status := rfl
@[simp] theorem State.emit_mem (e : OutEvent) : (s.emit e).mem = s.mem := rfl
@[simp] theorem State.emit_out (e : OutEvent) : (s.emit e).out = s.out ++ [e] := rfl
@[simp] theorem State.emit_instrBase (e : OutEvent) : (s.emit e).instrBase = s.instrBase := rfl
@[simp] theorem State.emit_delays (e : OutEvent) : (s.emit e).delays = s.delays := rfl
@[simp] theorem State.emit_getReg (e : OutEvent) (q : Reg) : (s.emit e).getReg q = s.getReg q := by cases q <;> rfl

/-! ### `State.delay` -/

@[simp] theorem State.delay_pc (k : Nat) : (s.delay k).pc = s.pc := rfl
@[simp] theorem State.delay_a (k : Nat) : (s.delay k).a = s.a := rfl
@[simp] theorem State.delay_b (k : Nat) : (s.delay k).b = s.b := rfl
@[simp] theorem State.delay_c (k : Nat) : (s.delay k).c = s.c := rfl
@[simp] theorem State.delay_z (k : Nat) : (s.delay k).z = s.z := rfl
@[simp] theorem State.delay_n (k : Nat) : (s.delay k).n = s.n := rfl
@[simp] theorem State.delay_stack (k : Nat) : (s.delay k).stack = s.stack := rfl
@[simp] theorem State.delay_status (k : Nat) : (s.delay k).status = s.status := rfl
@[simp] theorem State.delay_mem (k : Nat) : (s.delay k).mem = s.mem := rfl
@[simp] theorem State.delay_out (k : Nat) : (s.delay k).out = s.out := rfl
@[simp] theorem State.delay_instrBase (k : Nat) : (s.delay k).instrBase = s.instrBase := rfl
@[simp] theorem State.delay_delays (k : Nat) : (s.delay k).delays = s.delays ++ [k] := rfl
@[simp] theorem State.delay_getReg (k : Nat) (q : Reg) : (s.delay k).getReg q = s.getReg q := by cases q <;> rfl

/-! ### `State.restore` -/

@[simp] theorem State.restore_pc : (s.restore).pc = s.instrBase := rfl
@[simp] theorem State.restore_a : (s.restore).a = 0 := rfl
@[simp] theorem State.restore_b : (s.restore).b = 0 := rfl
@[simp] theorem State.restore_c : (s.restore).c = 0 := rfl
@[simp] theorem State.restore_z : (s.restore).z = false := rfl
@[simp] theorem State.restore_n : (s.restore).n = false := rfl
@[simp] theorem State.restore_stack : (s.restore).stack = [] := rfl
@[simp] theorem State.restore_status : (s.restore).status = s.status := rfl
@[simp] theorem State.restore_mem : (s.restore).mem = s.mem := rfl
@[simp] theorem State.restore_out : (s.restore).out = s.out := rfl
@[simp] theorem State.restore_instrBase : (s.restore).instrBase = s.instrBase := rfl
@[simp] theorem State.restore_delays : (s.restore).delays = s.delays := rfl
@[simp] theorem State.restore_getReg (q : Reg) : (s.restore).getReg q = 0 := by cases q <;> rfl

/-! ### `State.applyReset` -/

@[simp] theorem State.applyReset_pc (p : Addr) : (s.applyReset p).pc = p := rfl
@[simp] theorem State.applyReset_a (p : Addr) : (s.applyReset p).a = 0 := rfl
@[simp] theorem State.applyReset_b (p : Addr) : (s.applyReset p).b = 0 := rfl
@[simp] theorem State.applyReset_c (p : Addr) : (s.applyReset p).c = 0 := rfl
@[simp] theorem State.applyReset_z (p : Addr) : (s.applyReset p).z = false := rfl
@[simp] theorem State.applyReset_n (p : Addr) : (s.applyReset p).n = false := rfl
@[simp] theorem State.applyReset_stack (p : Addr) : (s.applyReset p).stack = [] := rfl
@[simp] theorem State.applyReset_status (p : Addr) : (s.applyReset p).status = .running := rfl
@[simp] theorem State.applyReset_mem (p : Addr) : (s.applyReset p).mem = s.mem := rfl
@[simp] theorem State.applyReset_out (p : Addr) : (s.applyReset p).out = [] := rfl
@[simp] theorem State.applyReset_instrBase (p : Addr) : (s.applyReset p).instrBase = p := rfl
@[simp] theorem State.applyReset_delays (p : Addr) : (s.applyReset p).delays = [] := rfl
@[simp] theorem State.applyReset_getReg (p : Addr) (q : Reg) : (s.applyReset p).getReg q = 0 := by cases q <;> rfl

/-! ### `State.setReg` -/

@[simp] theorem State.setReg_pc (r : Reg) (v : Word) : (s.setReg r v).pc = s.pc := by cases r <;> rfl
@[simp] theorem State.setReg_a (r : Reg) (v : Word) : (s.setReg r v).a = if r = .a then v else s.a := by cases r <;> rfl
@[simp] theorem State.setReg_b (r : Reg) (v : Word) : (s.setReg r v).b = if r = .b then v else s.b := by cases r <;> rfl
@[simp] theorem State.setReg_c (r : Reg) (v : Word) : (s.setReg r v).c = if r = .c then v else s.c := by cases r <;> rfl
@[simp] theorem State.setReg_z (r : Reg) (v : Word) : (s.setReg r v).z = s.z := by cases r <;> rfl
@[simp] theorem State.setReg_n (r : Reg) (v : Word) : (s.setReg r v).n = s.n := by cases r <;> rfl
@[simp] theorem State.setReg_stack (r : Reg) (v : Word) : (s.setReg r v).stack = s.stack := by cases r <;> rfl
@[simp] theorem State.setReg_status (r : Reg) (v : Word) : (s.setReg r v).status = s.status := by cases r <;> rfl
@[simp] theorem State.setReg_mem (r : Reg) (v : Word) : (s.setReg r v).mem = s.mem := by cases r <;> rfl
@[simp] theorem State.setReg_out (r : Reg) (v : Word) : (s.setReg r v).out = s.out := by cases r <;> rfl
@[simp] theorem State.setReg_instrBase (r : Reg) (v : Word) : (s.setReg r v).instrBase = s.instrBase := by cases r <;> rfl
@[simp] theorem State.setReg_delays (r : Reg) (v : Word) : (s.setReg r v).delays = s.delays := by cases r <;> rfl

@[simp] theorem State.setReg_getReg (r : Reg) (v : Word) (q : Reg) :
    (s.setReg r v).getReg q = if q = r then v else s.getReg q := by cases r <;> cases q <;> rfl

/-! ### `State.getReg` and `State.reset` -/

@[simp] theorem State.getReg_a : s.getReg .a = s.a := rfl
@[simp] theorem State.getReg_b : s.getReg .b = s.b := rfl
@[simp] theorem State.getReg_c : s.getReg .c = s.c := rfl

/-- `State.reset` is the external Reset, at the default base, of a machine with zero-filled memory. -/
theorem State.reset_eq_applyReset (h : s.mem = []) : s.applyReset Config.instrBase = State.reset := by
  simp [State.applyReset, State.restore, State.reset, h]

end Sys2Proof.Machine
end

