-- ==== Sys2Proof/Laws/Ops.lean ====
section
/-! SUPPORT. What each shared operation can do, said once: moving `pc`, register operands, the bound check and the
accesses behind it, the stack, the conditions, the resets, and what the step and the cursor can answer. -/

namespace Sys2Proof.Machine

/-! ## Moving `pc` -/

/-- Moving past an instruction puts `pc` past it, modulo 2^16. -/
theorem State.advance_pcPast (s : State) (m : Mnemonic) : PcPast m s (s.advance m.len) := by
  simp [PcPast, BitVec.toNat_add]

/-- Moving past an instruction changes `pc` only. -/
theorem State.advance_onlyPc (s : State) (k : Nat) : OnlyPc s (s.advance k) :=
  ⟨fun _ => by simp, ⟨rfl, rfl⟩, rfl, fun _ => rfl, ⟨rfl, rfl⟩, rfl, rfl⟩

/-! ## Operands -/

@[simp] theorem withReg_reg (r : Reg) (x : Addr) (s : State) (k : Reg → State) : withReg (.reg r) x s k = k r := rfl

@[simp] theorem withReg_bad (b : Byte) (x : Addr) (s : State) (k : Reg → State) :
    withReg (.bad b) x s k = s.raise (.unknownRegister b x) := rfl

/-- A register operand either runs the continuation on its register or raises `UnknownRegister`. -/
theorem withReg_cases (o : RegOperand) (x : Addr) (s : State) (k : Reg → State) :
    (∃ r, o = .reg r ∧ withReg o x s k = k r) ∨
    (∃ b, o = .bad b ∧ withReg o x s k = s.raise (.unknownRegister b x)) := by
  cases o with
  | reg r => exact .inl ⟨r, rfl, rfl⟩
  | bad b => exact .inr ⟨b, rfl, rfl⟩

@[simp] theorem lessThan_default (x y : Word) : lessThan Params.numerics x y = x.ult y := rfl
@[simp] theorem quotient_default (x y : Word) : quotient Params.numerics x y = x / y := rfl
@[simp] theorem remainder_default (x y : Word) : remainder Params.numerics x y = x % y := rfl
@[simp] theorem movRegImmLen_default : movRegImmLen Params.movRegImmFormat = Mnemonic.movRegImm.len := rfl
@[simp] theorem movRegImmValue_default (v w : Word) : movRegImmValue Params.movRegImmFormat v w = w := rfl
@[simp] theorem numberText_default (v : Word) : numberText Params.numerics v = Nat.toDigits 10 v.toNat := rfl

/-- With the value chosen `mov_reg_mem2` answers what `mov_reg_mem` answers (D13). -/
@[simp] theorem State.movRegMem2_default (s : State) (o : RegOperand) (addr : Addr) :
    s.movRegMem2 Params.movRegMem2 o addr =
      .next (withReg o s.pc (s.advance Mnemonic.movRegMem2.len) fun r =>
        (s.advance Mnemonic.movRegMem2.len).loadWord Config.memSize r addr) := rfl

/-- Where no operand has bit 15 set the two readings of a division agree (D7). -/
theorem quotient_of_msb_false {x y : Word} (hx : x.msb = false) (hy : y.msb = false) (m : Numerics) :
    quotient m x y = x / y ∧ remainder m x y = x % y := by
  cases m <;> simp [quotient, remainder, hx, hy]

@[simp] theorem jpTaken_default (z n : Bool) : jpTaken Params.jpCond z n = !n := rfl

/-! ## Data accesses -/

@[simp] theorem inRange_iff (size : Nat) (addr : Addr) (k : Nat) : inRange size addr k = true ↔ addr.toNat + k ≤ size := by
  simp [inRange]

/-- With the whole address space present a byte access is always in range (R57). -/
theorem inRange_byte (addr : Addr) : inRange Config.memSize addr 1 = true := by
  have := addr.isLt
  simp [Config.memSize]
  omega

/-- A 16-bit load writes its register, or is skipped. -/
theorem State.loadWord_cases (s : State) (size : Nat) (r : Reg) (addr : Addr) :
    (addr.toNat + 2 ≤ size ∧ s.loadWord size r addr = s.setReg r (s.mem.readWord addr)) ∨
    (size < addr.toNat + 2 ∧ s.loadWord size r addr = s) := by
  unfold State.loadWord
  split <;> rename_i h
  · exact .inl ⟨by simpa using h, rfl⟩
  · exact .inr ⟨by simpa using h, rfl⟩

/-- A 16-bit store writes memory, or is skipped whole. -/
theorem State.storeWord_cases (s : State) (size : Nat) (addr : Addr) (v : Word) :
    (addr.toNat + 2 ≤ size ∧ s.storeWord size addr v = s.setMem (s.mem.writeWord addr v)) ∨
    (size < addr.toNat + 2 ∧ s.storeWord size addr v = s) := by
  unfold State.storeWord
  split <;> rename_i h
  · exact .inl ⟨by simpa using h, rfl⟩
  · exact .inr ⟨by simpa using h, rfl⟩

/-- An 8-bit load writes its register, or is skipped. -/
theorem State.loadByte_cases (s : State) (size : Nat) (r : Reg) (addr : Addr) :
    (addr.toNat + 1 ≤ size ∧ s.loadByte size r addr = s.setReg r ((s.mem.read addr.toNat).zeroExtend 16)) ∨
    (size < addr.toNat + 1 ∧ s.loadByte size r addr = s) := by
  unfold State.loadByte
  split <;> rename_i h
  · exact .inl ⟨by simpa using h, rfl⟩
  · exact .inr ⟨by simpa using h, rfl⟩

/-- An 8-bit store writes memory, or is skipped. -/
theorem State.storeByte_cases (s : State) (size : Nat) (addr : Addr) (v : Byte) :
    (addr.toNat + 1 ≤ size ∧ s.storeByte size addr v = s.setMem (s.mem.write addr.toNat v)) ∨
    (size < addr.toNat + 1 ∧ s.storeByte size addr v = s) := by
  unfold State.storeByte
  split <;> rename_i h
  · exact .inl ⟨by simpa using h, rfl⟩
  · exact .inr ⟨by simpa using h, rfl⟩

/-! ## The stack -/

@[simp] theorem State.hasRoom_none (s : State) : s.hasRoom none = true := rfl

/-- An unbounded `Push` always succeeds (R13, R29). -/
@[simp] theorem State.pushThen_none (s : State) (x : Addr) (v : Word) (k : State → State) :
    s.pushThen none x v k = k (s.push v) := rfl

/-- `Push` appends, or raises `StackOverflow` on a full bounded stack. -/
theorem State.pushThen_cases (s : State) (depth : Option Nat) (x : Addr) (v : Word) (k : State → State) :
    (depth ≠ some s.stack.length ∧ s.pushThen depth x v k = k (s.push v)) ∨
    (depth = some s.stack.length ∧ s.pushThen depth x v k = s.raise (.stackOverflow v x)) := by
  cases depth with
  | none => exact .inl ⟨by simp, rfl⟩
  | some d =>
    by_cases h : s.stack.length = d
    · exact .inr ⟨by simp [h], by simp [State.pushThen, State.hasRoom, h]⟩
    · exact .inl ⟨by simpa using Ne.symm h, by simp [State.pushThen, State.hasRoom, h]⟩

/-- `Pop` on a stack with `v` on top. -/
theorem State.popThen_append (s : State) (st : List Word) (v : Word) (h : s.stack = st ++ [v])
    (k : State → Word → State) : s.popThen k = k (s.setStack st) v := by
  simp [State.popThen, h]

/-- `Pop` on the empty stack does nothing (R29). -/
theorem State.popThen_empty (s : State) (h : s.stack = []) (k : State → Word → State) : s.popThen k = s := by
  simp [State.popThen, h]

/-- `Pop` removes the top and continues, or finds the stack empty. -/
theorem State.popThen_cases (s : State) (k : State → Word → State) :
    (∃ st v, s.stack = st ++ [v] ∧ s.popThen k = k (s.setStack st) v) ∨ (s.stack = [] ∧ s.popThen k = s) := by
  rcases List.eq_nil_or_concat s.stack with h | ⟨st, v, h⟩
  · exact .inr ⟨h, s.popThen_empty h k⟩
  · rw [List.concat_eq_append] at h
    exact .inl ⟨st, v, h, s.popThen_append st v h k⟩

/-! ## The step (R37) -/

/-- What a step that answers a next state has done: run the decoded instruction, or raised `UnknownOpcode`. -/
theorem step_cases {s t : State} (h : step s = .next t) :
    s.status = .running ∧
    ((∃ i, decode s.window = .ok i ∧ exec i s = .next t) ∨
     (∃ k, decode s.window = .error (.unknownOpcode k) ∧ t = s.raiseUnknownOpcode k)) := by
  unfold step at h
  split at h
  · rename_i hs
    refine ⟨hs, ?_⟩
    split at h
    · rename_i i hi
      exact .inl ⟨i, hi, h⟩
    · rename_i k hk
      exact .inr ⟨k, hk, by cases h; rfl⟩
  · cases h
  · cases h

/-! ## The resolver: bytes at consecutive addresses (R228), and the cursor (R216) -/

/-- Byte `k` of the list stands `k` places after the first. -/
theorem placeBytes_eq_zipIdx (x : Nat) (l : List Byte) : placeBytes x l = (l.zipIdx x).map (fun p => (p.2, p.1)) := by
  induction l generalizing x with
  | nil => rfl
  | cons v l ih => simp [placeBytes, List.zipIdx_cons, ih]

/-- The cursor moves by the bytes asked for, inside the address space. -/
theorem moveCursor_eq_ok {c k d : Nat} (h : moveCursor c k = .ok d) : d = c + k ∧ d ≤ Config.memSize := by
  unfold moveCursor at h
  split at h
  · cases h
    exact ⟨rfl, ‹_›⟩
  · cases h

end Sys2Proof.Machine
end

