-- ==== Sys2Proof/Laws/PerInstr.lean ====
section
/-! SUPPORT. The statements made per instruction. `EncodeShape`: an instruction's bytes start with its mnemonic's
opcode and are no more than a code window holds (30_encoding R80). -/

namespace Sys2Proof.Laws

/-- The first byte is the opcode, and the bytes fit a code window. -/
def EncodeShape.Statement (i : Instr) : Prop :=
  (encode i).head? = some i.mnemonic.opcode ∧ (encode i).length ≤ 6

theorem EncodeShape.nop : EncodeShape.Statement (.nop) := ⟨rfl, Nat.le_of_ble_eq_true rfl⟩
theorem EncodeShape.halt : EncodeShape.Statement (.halt) := ⟨rfl, Nat.le_of_ble_eq_true rfl⟩
theorem EncodeShape.add : EncodeShape.Statement (.add) := ⟨rfl, Nat.le_of_ble_eq_true rfl⟩
theorem EncodeShape.sub : EncodeShape.Statement (.sub) := ⟨rfl, Nat.le_of_ble_eq_true rfl⟩
theorem EncodeShape.mul : EncodeShape.Statement (.mul) := ⟨rfl, Nat.le_of_ble_eq_true rfl⟩
theorem EncodeShape.div : EncodeShape.Statement (.div) := ⟨rfl, Nat.le_of_ble_eq_true rfl⟩
theorem EncodeShape.mod : EncodeShape.Statement (.mod) := ⟨rfl, Nat.le_of_ble_eq_true rfl⟩
theorem EncodeShape.cmp : EncodeShape.Statement (.cmp) := ⟨rfl, Nat.le_of_ble_eq_true rfl⟩
theorem EncodeShape.inc (r : RegOperand) : EncodeShape.Statement (.inc r) := ⟨rfl, Nat.le_of_ble_eq_true rfl⟩
theorem EncodeShape.lda (imm : Word) : EncodeShape.Statement (.lda imm) := ⟨rfl, Nat.le_of_ble_eq_true rfl⟩
theorem EncodeShape.ldb (imm : Word) : EncodeShape.Statement (.ldb imm) := ⟨rfl, Nat.le_of_ble_eq_true rfl⟩
theorem EncodeShape.ldc (imm : Word) : EncodeShape.Statement (.ldc imm) := ⟨rfl, Nat.le_of_ble_eq_true rfl⟩
theorem EncodeShape.movRegReg (dst : RegOperand) (src : RegOperand) : EncodeShape.Statement (.movRegReg dst src) := ⟨rfl, Nat.le_of_ble_eq_true rfl⟩
theorem EncodeShape.movRegImm (r : RegOperand) (addr : Addr) (imm : Word) : EncodeShape.Statement (.movRegImm r addr imm) := ⟨rfl, Nat.le_of_ble_eq_true rfl⟩
theorem EncodeShape.load (addr : Addr) (r : RegOperand) : EncodeShape.Statement (.load addr r) := ⟨rfl, Nat.le_of_ble_eq_true rfl⟩
theorem EncodeShape.store (addr : Addr) (r : RegOperand) : EncodeShape.Statement (.store addr r) := ⟨rfl, Nat.le_of_ble_eq_true rfl⟩
theorem EncodeShape.loadA (addr : Addr) : EncodeShape.Statement (.loadA addr) := ⟨rfl, Nat.le_of_ble_eq_true rfl⟩
theorem EncodeShape.storeA (addr : Addr) : EncodeShape.Statement (.storeA addr) := ⟨rfl, Nat.le_of_ble_eq_true rfl⟩
theorem EncodeShape.load8A (addr : Addr) : EncodeShape.Statement (.load8A addr) := ⟨rfl, Nat.le_of_ble_eq_true rfl⟩
theorem EncodeShape.store8A (addr : Addr) : EncodeShape.Statement (.store8A addr) := ⟨rfl, Nat.le_of_ble_eq_true rfl⟩
theorem EncodeShape.movRegMem (r : RegOperand) (addr : Addr) : EncodeShape.Statement (.movRegMem r addr) := ⟨rfl, Nat.le_of_ble_eq_true rfl⟩
theorem EncodeShape.movRegMem2 (r : RegOperand) (addr : Addr) : EncodeShape.Statement (.movRegMem2 r addr) := ⟨rfl, Nat.le_of_ble_eq_true rfl⟩
theorem EncodeShape.movMemReg (addr : Addr) (r : RegOperand) : EncodeShape.Statement (.movMemReg addr r) := ⟨rfl, Nat.le_of_ble_eq_true rfl⟩
theorem EncodeShape.movMemImm (addr : Addr) (imm : Word) : EncodeShape.Statement (.movMemImm addr imm) := ⟨rfl, Nat.le_of_ble_eq_true rfl⟩
theorem EncodeShape.mov8MemImm (addr : Addr) (imm : Byte) : EncodeShape.Statement (.mov8MemImm addr imm) := ⟨rfl, Nat.le_of_ble_eq_true rfl⟩
theorem EncodeShape.jmp (addr : Addr) : EncodeShape.Statement (.jmp addr) := ⟨rfl, Nat.le_of_ble_eq_true rfl⟩
theorem EncodeShape.jz (addr : Addr) : EncodeShape.Statement (.jz addr) := ⟨rfl, Nat.le_of_ble_eq_true rfl⟩
theorem EncodeShape.jnz (addr : Addr) : EncodeShape.Statement (.jnz addr) := ⟨rfl, Nat.le_of_ble_eq_true rfl⟩
theorem EncodeShape.jn (addr : Addr) : EncodeShape.Statement (.jn addr) := ⟨rfl, Nat.le_of_ble_eq_true rfl⟩
theorem EncodeShape.jp (addr : Addr) : EncodeShape.Statement (.jp addr) := ⟨rfl, Nat.le_of_ble_eq_true rfl⟩
theorem EncodeShape.jeq (addr : Addr) : EncodeShape.Statement (.jeq addr) := ⟨rfl, Nat.le_of_ble_eq_true rfl⟩
theorem EncodeShape.jgt (addr : Addr) : EncodeShape.Statement (.jgt addr) := ⟨rfl, Nat.le_of_ble_eq_true rfl⟩
theorem EncodeShape.jlt (addr : Addr) : EncodeShape.Statement (.jlt addr) := ⟨rfl, Nat.le_of_ble_eq_true rfl⟩
theorem EncodeShape.call (addr : Addr) : EncodeShape.Statement (.call addr) := ⟨rfl, Nat.le_of_ble_eq_true rfl⟩
theorem EncodeShape.ret : EncodeShape.Statement (.ret) := ⟨rfl, Nat.le_of_ble_eq_true rfl⟩
theorem EncodeShape.push (r : RegOperand) : EncodeShape.Statement (.push r) := ⟨rfl, Nat.le_of_ble_eq_true rfl⟩
theorem EncodeShape.pop (r : RegOperand) : EncodeShape.Statement (.pop r) := ⟨rfl, Nat.le_of_ble_eq_true rfl⟩
theorem EncodeShape.wait (v : Byte) : EncodeShape.Statement (.wait v) := ⟨rfl, Nat.le_of_ble_eq_true rfl⟩
theorem EncodeShape.int (v : Byte) : EncodeShape.Statement (.int v) := ⟨rfl, Nat.le_of_ble_eq_true rfl⟩
theorem EncodeShape.syscall : EncodeShape.Statement (.syscall) := ⟨rfl, Nat.le_of_ble_eq_true rfl⟩
theorem EncodeShape.printa : EncodeShape.Statement (.printa) := ⟨rfl, Nat.le_of_ble_eq_true rfl⟩

end Sys2Proof.Laws
end

