-- ==== Sys2Proof/Tests/Slice0.lean ====
section
/-! SUPPORT. Tests: expected results are those of spec/95_test_vectors.md (named V-… or S…) and of the byte table of
30_encoding R110, or computed by hand from the rule named. Names starting test_witness_ show that a statement's
hypotheses can be met, clause by clause. -/

namespace Sys2Proof.Machine

/-! ## Helpers -/

/-- The next state, if that is the answer. -/
def nextState (o : Result) : Option State :=
  match o with
  | .next t => some t
  | _ => none

/-- The start state of the vectors with code bytes at 0x9000. -/
def codeAt (bytes : List Byte) : State := State.launch (placeBytes 0x9000 bytes) 0x9000

/-- The same with the extra bytes of the load and store vectors. -/
def memAt (bytes : List Byte) : State :=
  State.launch
    (placeBytes 0x9000 bytes ++ placeBytes 0x8000 [0x12, 0x34, 0xAB, 0, 0, 0x55] ++ placeBytes 0xFFFE [0xCA, 0xFE])
    0x9000

/-- A view of the state after one step. -/
def view {α : Type} (s : State) (f : State → α) : Option α := (nextState (step s)).map f

/-- A view of the state after one instruction. -/
def viewExec {α : Type} (i : Instr) (s : State) (f : State → α) : Option α := (nextState (exec i s)).map f

/-- What an instruction's bytes decode to. -/
def decodesTo (bytes : List Byte) (i : Instr) : Bool :=
  match decode (CodeWindow.ofBytes bytes) with
  | .ok j => decide (j = i)
  | .error _ => false

/-- What assembling lines at 0x9000 yields: the symbol table, the bytes and the diagnostics; none when refused. -/
def asm (ls : List String) : Option (SymTab × List (Nat × Byte) × List Diag) :=
  match assemble 0x9000 (ls.map String.toList) with
  | .ok r => some (r.symtab, r.image, r.diags)
  | .error _ => none

/-- Whether assembling is refused, and why. -/
def refusal (ls : List String) : Option AsmRefusal :=
  match assemble 0x9000 (ls.map String.toList) with
  | .ok _ => none
  | .error e => some e

/-! ## Well-formedness: each check refuses an ill-formed term and lets a well-formed one pass (R9, R95) -/

theorem test_wf_letter_called_bad :
    [Instr.inc (.bad 0x61), .load 0x8000 (.bad 0x62), .store 0x8000 (.bad 0x63), .movMemReg 0 (.bad 0x61),
      .push (.bad 0x62), .pop (.bad 0x63), .movRegImm (.bad 0x61) 0 0, .movRegMem (.bad 0x62) 0,
      .movRegMem2 (.bad 0x63) 0, .movRegReg (.bad 0x61) (.reg .a), .movRegReg (.reg .a) (.bad 0x61)].all
      (fun i => !i.wf) = true := by decide

theorem test_wf_other_letters :
    [Instr.inc (.bad 0x64), .movRegReg (.bad 0x41) (.bad 0x7A), .movRegReg (.reg .a) (.reg .c), .load 0xFFFF (.bad 0),
      .movRegImm (.bad 0x7A) 0xFFFF 0, .nop, .wait 255, .int 0xFF, .call 0xFFFF].all Instr.wf = true := by decide

/-! ## Decoding: the byte table of R110 -/

theorem test_decode_f0 :
    (decodesTo [0x00] .nop && decodesTo [0x01] .halt && decodesTo [0x02] .add && decodesTo [0x03] .sub &&
      decodesTo [0x04] .mul && decodesTo [0x05] .div && decodesTo [0x06] .mod && decodesTo [0x07] .cmp &&
      decodesTo [0x22] .ret && decodesTo [0x27] .syscall && decodesTo [0x28] .printa) = true := by decide

theorem test_decode_fr_fb :
    (decodesTo [0x08, 0x62] (.inc (.reg .b)) && decodesTo [0x23, 0x61] (.push (.reg .a)) &&
      decodesTo [0x24, 0x63] (.pop (.reg .c)) && decodesTo [0x25, 0x05] (.wait 5) &&
      decodesTo [0x26, 0x12] (.int 0x12) && decodesTo [0x08, 0x41] (.inc (.bad 0x41))) = true := by decide

theorem test_decode_fi_frr :
    (decodesTo [0x09, 0x00, 0x0A] (.lda 10) && decodesTo [0x0A, 0x00, 0x03] (.ldb 3) &&
      decodesTo [0x0B, 0x12, 0x34] (.ldc 0x1234) &&
      decodesTo [0x0C, 0x62, 0x61] (.movRegReg (.reg .b) (.reg .a))) = true := by decide

theorem test_decode_fa :
    (decodesTo [0x10, 0x80, 0x00] (.loadA 0x8000) && decodesTo [0x11, 0x80, 0x00] (.storeA 0x8000) &&
      decodesTo [0x12, 0x80, 0x01] (.load8A 0x8001) && decodesTo [0x13, 0x80, 0x04] (.store8A 0x8004)) = true := by
  decide

theorem test_decode_fa_control :
    (decodesTo [0x19, 0x90, 0x00] (.jmp 0x9000) && decodesTo [0x1A, 0x90, 0x10] (.jz 0x9010) &&
      decodesTo [0x1B, 0x90, 0x09] (.jnz 0x9009) && decodesTo [0x1C, 0x90, 0x00] (.jn 0x9000) &&
      decodesTo [0x1D, 0x90, 0x00] (.jp 0x9000) && decodesTo [0x1E, 0x90, 0x00] (.jeq 0x9000) &&
      decodesTo [0x1F, 0x90, 0x00] (.jgt 0x9000) && decodesTo [0x20, 0x90, 0x00] (.jlt 0x9000) &&
      decodesTo [0x21, 0x90, 0x0A] (.call 0x900A)) = true := by decide

theorem test_decode_far_fra_fab :
    (decodesTo [0x0E, 0x80, 0x00, 0x62] (.load 0x8000 (.reg .b)) &&
      decodesTo [0x0F, 0x80, 0x02, 0x63] (.store 0x8002 (.reg .c)) &&
      decodesTo [0x16, 0x80, 0x00, 0x61] (.movMemReg 0x8000 (.reg .a)) &&
      decodesTo [0x14, 0x61, 0x80, 0x00] (.movRegMem (.reg .a) 0x8000) &&
      decodesTo [0x15, 0x62, 0x80, 0x00] (.movRegMem2 (.reg .b) 0x8000) &&
      decodesTo [0x18, 0x80, 0x00, 0xAB] (.mov8MemImm 0x8000 0xAB)) = true := by decide

theorem test_decode_fai_frai :
    (decodesTo [0x17, 0x80, 0x00, 0x12, 0x34] (.movMemImm 0x8000 0x1234) &&
      decodesTo [0x0D, 0x63, 0x80, 0x00, 0x12, 0x34] (.movRegImm (.reg .c) 0x8000 0x1234)) = true := by decide

/-- The table word numbers byte 0 as bits 7 to 0: `mov_reg_imm c 0x8000 0x1234`, and an illegal byte. -/
theorem test_decodeTableWord :
    decodeTableWord 48 0x34120080630D = some (.movRegImm (.reg .c) 0x8000 0x1234) ∧
      decodeTableWord 8 0x09 = some (.lda 0) ∧ decodeTableWord 8 0x29 = none := by decide

/-- The host's placed word is the instruction the next step runs: `lda 0x1234` right after reset. -/
theorem test_withFetchWord : view (State.reset.withFetchWord 24 0x341209) (fun t => (t.a, t.pc)) =
    some (0x1234, 0x9003) := by decide

/-! ## One step: arithmetic and comparison (95_test_vectors 2.1) -/

/-- V-ADD-2. -/
theorem test_add_wraps : view { codeAt [0x02] with a := 0xFFFF, b := 1 } (fun t => (t.a, t.pc, t.z)) =
    some (0, 0x9001, false) := by decide

/-- V-SUB-3. -/
theorem test_sub_keeps_flags :
    view { codeAt [0x03] with a := 0x1234, b := 0x1234, n := true } (fun t => (t.a, t.pc, t.z, t.n)) =
      some (0, 0x9001, false, true) := by decide

/-- V-SUB-1. -/
theorem test_sub_borrows : view { codeAt [0x03] with a := 5, b := 7 } (fun t => (t.a, t.pc)) =
    some (0xFFFE, 0x9001) := by decide

/-- V-MUL-4. -/
theorem test_mul_keeps_low_half : view { codeAt [0x04] with a := 0x1234, b := 0x10 } (fun t => (t.a, t.pc)) =
    some (0x2340, 0x9001) := by decide

/-- V-DIV-4. -/
theorem test_div_unsigned : view { codeAt [0x05] with a := 0xFFFF, b := 2 } (fun t => (t.a, t.pc)) =
    some (0x7FFF, 0x9001) := by decide

/-- V-DIV-2. -/
theorem test_div_by_zero : view { codeAt [0x05] with a := 7 } (fun t => (t.a, t.pc, t.status)) =
    some (7, 0x9001, .running) := by decide

/-- V-MOD-1. -/
theorem test_mod : view { codeAt [0x06] with a := 17, b := 5 } (fun t => (t.a, t.pc)) = some (2, 0x9001) := by decide

/-- V-MOD-2. -/
theorem test_mod_by_zero : view { codeAt [0x06] with a := 7 } (fun t => (t.a, t.pc, t.status)) =
    some (7, 0x9001, .running) := by decide

/-- V-INC-2. -/
theorem test_inc_wraps : view { codeAt [0x08, 0x63] with c := 0xFFFF } (fun t => (t.c, t.pc, t.z)) =
    some (0, 0x9002, false) := by decide

/-- V-INC-3. -/
theorem test_inc_bad_letter : view { codeAt [0x08, 0x41] with a := 4 } (fun t => (t.a, t.pc, t.status)) =
    some (4, 0x9002, .faulted (.unknownRegister 0x41 0x9000)) := by decide

/-- V-CMP-1 and V-CMP-2. -/
theorem test_cmp_less_equal :
    view { codeAt [0x07] with b := 3, c := 5 } (fun t => (t.z, t.n, t.pc)) = some (false, true, 0x9001) ∧
      view { codeAt [0x07] with b := 5, c := 5 } (fun t => (t.z, t.n, t.pc)) = some (true, false, 0x9001) := by decide

/-- V-CMP-4. -/
theorem test_cmp_unsigned : view { codeAt [0x07] with b := 0x8000, c := 1 } (fun t => (t.z, t.n, t.pc)) =
    some (false, false, 0x9001) := by decide

/-- The signed reading (D7): the same at operands without bit 15 (V-DIV-1, V-MOD-1), another `<` with it. -/
theorem test_signed_reading :
    quotient .signed 17 5 = 3 ∧ remainder .signed 17 5 = 2 ∧ lessThan .signed 0x8000 1 = true ∧
      numberText .signed 13 = "13".toList := by decide

/-! ## Immediate loads and register moves (2.2) -/

/-- V-MOV-1 and V-MOV-11. -/
theorem test_lda : view { codeAt [0x09, 0x00, 0x0A] with z := true } (fun t => (t.a, t.pc, t.z)) =
    some (10, 0x9003, true) := by decide

/-- V-MOV-2. -/
theorem test_ldb : view (codeAt [0x0A, 0xFF, 0xFF]) (fun t => (t.b, t.pc)) = some (0xFFFF, 0x9003) := by decide

/-- V-MOV-3. -/
theorem test_ldc : view (codeAt [0x0B, 0x12, 0x34]) (fun t => (t.c, t.pc)) = some (0x1234, 0x9003) := by decide

/-- V-MOV-4. -/
theorem test_movRegReg : view { codeAt [0x0C, 0x62, 0x61] with a := 0x34 } (fun t => (t.a, t.b, t.pc)) =
    some (0x34, 0x34, 0x9003) := by decide

/-- V-MOV-7 and V-MOV-8. -/
theorem test_movRegReg_first_bad_letter :
    view (codeAt [0x0C, 0x41, 0x7A]) (fun t => t.status) = some (.faulted (.unknownRegister 0x41 0x9000)) ∧
      view { codeAt [0x0C, 0x61, 0x7A] with a := 9 } (fun t => (t.a, t.status)) =
        some (9, .faulted (.unknownRegister 0x7A 0x9000)) := by decide

/-- V-MOV-5. -/
theorem test_movRegImm : view (codeAt [0x0D, 0x63, 0x80, 0x00, 0x12, 0x34])
    (fun t => (t.c, t.pc, t.mem.read 0x8000)) = some (0x1234, 0x9006, 0) := by decide

/-- V-MOV-6. -/
theorem test_movRegImm_bad_letter : view (codeAt [0x0D, 0x7A, 0x80, 0x00, 0x12, 0x34]) (fun t => (t.pc, t.status)) =
    some (0x9006, .faulted (.unknownRegister 0x7A 0x9000)) := by decide

/-- `MOV_REG_IMM_FORMAT` (D5): six bytes or four, and where the immediate stands. -/
theorem test_movRegImm_formats :
    movRegImmLen .frai = 6 ∧ movRegImmValue .frai 0x8000 0x1234 = 0x1234 ∧
      movRegImmLen .fourByte = 4 ∧ movRegImmValue .fourByte 0x8000 0x1234 = 0x8000 := by decide

/-! ## Loads and stores (2.3) -/

/-- V-MEM-1. -/
theorem test_load : view (memAt [0x0E, 0x80, 0x00, 0x62]) (fun t => (t.b, t.pc)) = some (0x1234, 0x9004) := by decide

/-- V-MEM-17. -/
theorem test_load_letter_before_bound :
    view { memAt [0x0E, 0xFF, 0xFF, 0x7A] with a := 1 } (fun t => (t.a, t.pc, t.status)) =
      some (1, 0x9004, .faulted (.unknownRegister 0x7A 0x9000)) := by decide

/-- V-MEM-2. -/
theorem test_store : view { memAt [0x0F, 0x80, 0x02, 0x63] with c := 0xBEEF }
    (fun t => (t.mem.read 0x8002, t.mem.read 0x8003, t.pc)) = some (0xBE, 0xEF, 0x9004) := by decide

/-- V-MEM-19. -/
theorem test_loadA_odd_address : view (memAt [0x10, 0x80, 0x01]) (fun t => (t.a, t.pc)) = some (0x34AB, 0x9003) := by
  decide

/-- V-MEM-13. -/
theorem test_loadA_past_the_end : view { memAt [0x10, 0xFF, 0xFF] with a := 0x1234 } (fun t => (t.a, t.pc, t.status)) =
    some (0x1234, 0x9003, .running) := by decide

/-- V-MEM-4. -/
theorem test_storeA : view { memAt [0x11, 0x80, 0x00] with a := 0x000F }
    (fun t => (t.mem.read 0x8000, t.mem.read 0x8001, t.pc, t.mem.wf)) = some (0, 0x0F, 0x9003, true) := by decide

/-- V-MEM-14. -/
theorem test_storeA_past_the_end : view { memAt [0x11, 0xFF, 0xFF] with a := 0xBEEF }
    (fun t => (t.mem.read 0xFFFF, t.mem.read 0, t.pc)) = some (0xFE, 0, 0x9003) := by decide

/-- V-MEM-6. -/
theorem test_load8A_no_sign : view (memAt [0x12, 0x80, 0x02]) (fun t => (t.a, t.pc)) = some (0x00AB, 0x9003) := by decide

/-- V-MEM-15. -/
theorem test_load8A_last_byte : view (memAt [0x12, 0xFF, 0xFF]) (fun t => (t.a, t.pc)) = some (0x00FE, 0x9003) := by
  decide

/-- V-MEM-7. -/
theorem test_store8A : view { memAt [0x13, 0x80, 0x04] with a := 0x12AB }
    (fun t => (t.mem.read 0x8004, t.mem.read 0x8005, t.pc)) = some (0xAB, 0x55, 0x9003) := by decide

/-- V-MEM-8. -/
theorem test_movRegMem : view (memAt [0x14, 0x61, 0x80, 0x00]) (fun t => (t.a, t.pc)) = some (0x1234, 0x9004) := by decide

/-- V-MEM-9. -/
theorem test_movRegMem2 : view (memAt [0x15, 0x62, 0x80, 0x00]) (fun t => (t.b, t.pc)) = some (0x1234, 0x9004) := by
  decide

/-- V-MEM-10. -/
theorem test_movMemReg : view { memAt [0x16, 0x80, 0x10, 0x61] with a := 0x1234 }
    (fun t => (t.mem.read 0x8010, t.mem.read 0x8011, t.pc)) = some (0x12, 0x34, 0x9004) := by decide

/-- V-MEM-11. -/
theorem test_movMemImm : view (memAt [0x17, 0x80, 0x06, 0xBE, 0xEF])
    (fun t => (t.mem.read 0x8006, t.mem.read 0x8007, t.pc)) = some (0xBE, 0xEF, 0x9005) := by decide

/-- V-MEM-25. -/
theorem test_movMemImm_past_the_end : view (memAt [0x17, 0xFF, 0xFF, 0x12, 0x34])
    (fun t => (t.mem.read 0xFFFF, t.pc)) = some (0xFE, 0x9005) := by decide

/-- V-MEM-12. -/
theorem test_mov8MemImm : view (memAt [0x18, 0x80, 0x00, 0x99])
    (fun t => (t.mem.read 0x8000, t.mem.read 0x8001, t.pc)) = some (0x99, 0x34, 0x9004) := by decide

/-- V-MEM-20, first step: the store is what the next fetch reads. -/
theorem test_mov8MemImm_into_code : view (codeAt [0x18, 0x90, 0x04, 0x01]) (fun t => (t.window.b0, t.pc)) =
    some (0x01, 0x9004) := by decide

/-- `MOV_REG_MEM2` = refuse (U4): the letter is still checked, and a good one gives no data effect. -/
theorem test_movRegMem2_refusing :
    nextState ((memAt []).movRegMem2 .refuse (.reg .b) 0x8000) = none ∧
      (nextState ((memAt []).movRegMem2 .refuse (.bad 0x7A) 0x8000)).map (·.pc) = some 0x9004 := by decide

/-! ## Control transfer (2.4) -/

/-- R170. -/
theorem test_jmp : view (codeAt [0x19, 0x12, 0x34]) (fun t => t.pc) = some 0x1234 := by decide

/-- R171: taken for Z = 1 only. -/
theorem test_jz : view { codeAt [0x1A, 0x90, 0x10] with z := true } (fun t => t.pc) = some 0x9010 ∧
    view { codeAt [0x1A, 0x90, 0x10] with n := true } (fun t => t.pc) = some 0x9003 := by decide

/-- R172: taken for Z = 0 only. -/
theorem test_jnz : view { codeAt [0x1B, 0x90, 0x10] with n := true } (fun t => t.pc) = some 0x9010 ∧
    view { codeAt [0x1B, 0x90, 0x10] with z := true } (fun t => t.pc) = some 0x9003 := by decide

/-- R173: taken for N = 1 only. -/
theorem test_jn : view { codeAt [0x1C, 0x90, 0x10] with n := true } (fun t => t.pc) = some 0x9010 ∧
    view { codeAt [0x1C, 0x90, 0x10] with z := true } (fun t => t.pc) = some 0x9003 := by decide

/-- R174 under D15: taken for N = 0, also when Z = 1. -/
theorem test_jp : view { codeAt [0x1D, 0x90, 0x10] with z := true } (fun t => t.pc) = some 0x9010 ∧
    view { codeAt [0x1D, 0x90, 0x10] with n := true } (fun t => t.pc) = some 0x9003 := by decide

/-- R175: compares B with C, and reads no flag. -/
theorem test_jeq : view { codeAt [0x1E, 0x90, 0x10] with b := 4, c := 4 } (fun t => t.pc) = some 0x9010 ∧
    view { codeAt [0x1E, 0x90, 0x10] with b := 4, c := 5, z := true } (fun t => t.pc) = some 0x9003 := by decide

/-- V-CTL-17, and not taken on equal values (R176). -/
theorem test_jgt : view { codeAt [0x1F, 0x90, 0x10] with b := 0x8000, c := 1 } (fun t => t.pc) = some 0x9010 ∧
    view { codeAt [0x1F, 0x90, 0x10] with b := 4, c := 4 } (fun t => t.pc) = some 0x9003 := by decide

/-- V-CTL-18 and V-CTL-20. -/
theorem test_jlt : view { codeAt [0x20, 0x90, 0x10] with b := 2, c := 9 } (fun t => t.pc) = some 0x9010 ∧
    view { codeAt [0x20, 0x90, 0x10] with b := 4, c := 4 } (fun t => t.pc) = some 0x9003 := by decide

/-- V-CTL-21. -/
theorem test_call : view (codeAt [0x21, 0x90, 0x0A]) (fun t => (t.stack, t.pc)) = some ([0x9003], 0x900A) := by decide

/-- V-CTL-22. -/
theorem test_call_return_address_wraps :
    view (State.launch (placeBytes 0xFFFD [0x21, 0x12, 0x34]) 0xFFFD) (fun t => (t.stack, t.pc)) =
      some ([0], 0x1234) := by decide

/-- V-CTL-25. -/
theorem test_ret : view { codeAt [0x22] with stack := [1, 0xBEEF] } (fun t => (t.stack, t.pc)) =
    some ([1], 0xBEEF) := by decide

/-- V-CTL-24. -/
theorem test_ret_on_empty : view (codeAt [0x22]) (fun t => (t.stack, t.pc, t.status)) =
    some ([], 0x9001, .running) := by decide

/-! ## Stack (2.5) -/

/-- V-STK-1. -/
theorem test_push : view { codeAt [0x23, 0x61] with a := 0x1234 } (fun t => (t.stack, t.pc, t.a)) =
    some ([0x1234], 0x9002, 0x1234) := by decide

/-- V-STK-4. -/
theorem test_push_bad_letter : view { codeAt [0x23, 0x7A] with stack := [7] } (fun t => (t.stack, t.pc, t.status)) =
    some ([7], 0x9002, .faulted (.unknownRegister 0x7A 0x9000)) := by decide

/-- V-STK-2. -/
theorem test_pop : view { codeAt [0x24, 0x63] with stack := [1, 0x1234] } (fun t => (t.c, t.stack, t.pc)) =
    some (0x1234, [1], 0x9002) := by decide

/-- V-STK-3. -/
theorem test_pop_on_empty : view { codeAt [0x24, 0x61] with a := 5 } (fun t => (t.a, t.pc, t.status)) =
    some (5, 0x9002, .running) := by decide

/-- V-CTL-26 and V-STK-8: a stack bounded at 2. -/
theorem test_bounded_stack :
    let s := { codeAt [] with a := 3, stack := [1, 2] }
    let t := s.call (some 2) 0x900A
    let u := s.pushReg (some 2) (.reg .a)
    t.status = .faulted (.stackOverflow 0x9003 0x9000) ∧ t.pc = 0x9003 ∧ t.stack = [1, 2] ∧
      u.status = .faulted (.stackOverflow 3 0x9000) ∧ u.pc = 0x9002 ∧ u.stack = [1, 2] := by decide

/-! ## System (2.6) -/

/-- V-SYS-1 and V-SYS-23. -/
theorem test_nop : view (codeAt [0x00]) (fun t => t.pc) = some 0x9001 ∧
    view (State.launch [] 0xFFFF) (fun t => t.pc) = some 0 := by decide

/-- V-SYS-2. -/
theorem test_halt : view { codeAt [0x01] with a := 5 } (fun t => (t.a, t.pc, t.status)) =
    some (5, 0x9001, .halted) := by decide

/-- V-SYS-3. -/
theorem test_wait : view (codeAt [0x25, 0x05]) (fun t => (t.delays, t.pc, t.out)) = some ([5], 0x9002, []) := by decide

/-- V-SYS-5, V-SYS-6 and V-SYS-8. -/
theorem test_int :
    view { codeAt [0x26, 0x11] with a := 42 } (fun t => (t.out, t.pc)) = some ([.num 42], 0x9002) ∧
      view { codeAt [0x26, 0x12] with b := 3 } (fun t => (t.delays, t.pc)) = some ([3], 0x9002) ∧
      view (codeAt [0x26, 0xFF]) (fun t => (t.pc, t.status)) =
        some (0x9002, .faulted (.unknownInterrupt 0xFF 0x9000)) := by decide

/-- V-SYS-7. -/
theorem test_int_reset :
    let s := { State.launch (placeBytes 0x9020 [0x26, 0x13]) 0x9000 with
      pc := 0x9020, a := 1, b := 2, c := 3, z := true, stack := [9], out := [.num 1] }
    view s (fun t => (t.pc, t.status, t.out)) = some (0x9000, .halted, [.num 1]) ∧
      view s (fun t => ([t.a, t.b, t.c], t.z, t.stack)) = some ([0, 0, 0], false, []) := by decide

/-- V-SYS-10, V-SYS-11, V-SYS-12 and V-SYS-13. -/
theorem test_syscall :
    view { codeAt [0x27] with b := 9 } (fun t => (t.pc, t.out, t.delays)) = some (0x9001, [], []) ∧
      view { codeAt [0x27] with a := 1, b := 100 } (fun t => t.delays) = some [100] ∧
      view { codeAt [0x27] with a := 2, b := 13 } (fun t => t.out) = some [.num 13] ∧
      view { codeAt [0x27] with a := 3, b := 0x0141 } (fun t => t.out) = some [.chr 0x41] := by decide

/-- V-SYS-14 and V-SYS-16. -/
theorem test_syscall_stops :
    view { codeAt [0x27] with a := 4 } (fun t => (t.pc, t.status)) = some (0x9001, .halted) ∧
      view { codeAt [0x27] with a := 0x0101 } (fun t => (t.pc, t.status)) =
        some (0x9001, .faulted (.unknownSyscall 0x0101 0x9000)) := by decide

/-- V-SYS-18 and its rendering. -/
theorem test_printa : view { codeAt [0x28] with a := 0xFFFF } (fun t => (t.out, t.pc)) =
    some ([.num 0xFFFF], 0x9001) ∧ renderTrace [.num 0xFFFF, .chr 0x34, .num 0] = "6553540".toList := by decide

/-! ## The step itself -/

/-- V-SYS-20. -/
theorem test_unknown_opcode : view (codeAt [0x29]) (fun t => (t.pc, t.status)) =
    some (0x9001, .faulted (.unknownOpcode 0x29 0x9000)) := by decide

/-- V-SYS-22. -/
theorem test_no_step_once_stopped : nextState (step { codeAt [0x01, 0x02] with status := .halted }) = none := by decide

/-- V-SYS-24. -/
theorem test_instruction_across_the_wrap :
    view (State.launch ((0xFFFF, 0x09) :: placeBytes 0 [0x12, 0x34]) 0xFFFF) (fun t => (t.a, t.pc)) =
      some (0x1234, 2) := by decide

/-! ## The resolver (Part 4) -/

/-- V-ASM-1. -/
theorem test_asm_org : asm [".org 0x9100", "nop", "halt"] =
    some ([], [(0x9100, 0x00), (0x9101, 0x01)], []) := by decide

/-- V-ASM-2. -/
theorem test_asm_label_before_directive : asm ["data: .org 0x9200", "nop"] =
    some ([("data".toList, 0x9000)], [(0x9200, 0x00)], []) := by decide

/-- V-ASM-3. -/
theorem test_asm_placeholder : asm ["jmp nowhere"] =
    some ([], placeBytes 0x9000 [0x19, 0, 0], [.unresolvedLabel "nowhere".toList]) := by decide

/-- V-ASM-4. -/
theorem test_asm_db : asm [".db 1,2,3", "here: halt", "jmp here"] =
    some ([("here".toList, 0x9003)], placeBytes 0x9000 [0x01, 0x19, 0x90, 0x03],
      [.unknownMnemonic ".db".toList]) := by decide

/-- V-ASM-5. -/
theorem test_asm_unknown : asm ["frob", "here: halt", "jmp here"] =
    some ([("here".toList, 0x9001)], placeBytes 0x9000 [0x01, 0x19, 0x90, 0x01],
      [.unknownSize "frob".toList, .unknownMnemonic "frob".toList]) := by decide

/-- V-ASM-6. -/
theorem test_asm_comments : asm ["  lda 5 ; five", "", "// only a comment", "ldb 3 // three"] =
    some ([], placeBytes 0x9000 [0x09, 0, 5, 0x0A, 0, 3], []) := by decide

/-- V-ASM-7. -/
theorem test_asm_org_cancels_drift : asm ["mov_reg_imm a 0x0000 0x0001", ".org 0x9100", "here: halt", "jmp here"] =
    some ([("here".toList, 0x9100)],
      placeBytes 0x9000 [0x0D, 0x61, 0, 0, 0, 1] ++ placeBytes 0x9100 [0x01, 0x19, 0x91, 0x00], []) := by decide

/-- V-ASM-8. -/
theorem test_asm_hex_without_prefix : asm ["load_a 8000", "jmp 9000"] =
    some ([], placeBytes 0x9000 [0x10, 0x80, 0x00, 0x19, 0, 0], [.unresolvedLabel "9000".toList]) := by decide

/-- V-ASM-9. -/
theorem test_asm_case : asm ["Loop: nop", "jmp loop"] =
    some ([("Loop".toList, 0x9000)], placeBytes 0x9000 [0x00, 0x19, 0, 0], [.unresolvedLabel "loop".toList]) := by
  decide

/-- V-ASM-10. -/
theorem test_asm_label_alone : asm ["a1:", "a2: nop", "jmp a1", "jmp a2"] =
    some ([("a1".toList, 0x9000), ("a2".toList, 0x9000)],
      placeBytes 0x9000 [0x00, 0x19, 0x90, 0x00, 0x19, 0x90, 0x00], []) := by decide

/-- V-ASM-11. -/
theorem test_asm_forward : asm ["start: lda 5", "call sub", "halt", "sub: inc a", "ret"] =
    some ([("start".toList, 0x9000), ("sub".toList, 0x9007)],
      placeBytes 0x9000 [0x09, 0, 5, 0x21, 0x90, 0x07, 0x01, 0x08, 0x61, 0x22], []) := by decide

/-- V-ASM-12. -/
theorem test_asm_radices : asm ["lda 65535", "mov8_mem_imm 0x8000 0xAB", "int 0x12", "wait 200"] =
    some ([], placeBytes 0x9000 [0x09, 0xFF, 0xFF, 0x18, 0x80, 0x00, 0xAB, 0x26, 0x12, 0x25, 0xC8], []) := by decide

/-- V-ASM-13 and V-ASM-14. -/
theorem test_asm_refused :
    refusal ["x: nop", "x: halt"] = some (.duplicateLabel "x".toList) ∧
      refusal ["lda 65536"] = some (.literal "65536".toList) := by decide

/-- Program P5: `mov_reg_imm` makes a label lie 2 low. -/
theorem test_asm_drift : asm ["jmp skip", "mov_reg_imm a 0x0000 0x0001", "skip: printa", "halt"] =
    some ([("skip".toList, 0x9007)],
      placeBytes 0x9000 [0x19, 0x90, 0x07, 0x0D, 0x61, 0, 0, 0, 1, 0x28, 0x01], []) := by decide

/-- Program P5 with `SIZE_MOV_REG_IMM` = 6: the label is true. -/
theorem test_asm_no_drift_with_true_size :
    (match assembleWith (sizeTable 6) 0x9000
        (["jmp skip", "mov_reg_imm a 0x0000 0x0001", "skip: printa", "halt"].map String.toList) with
      | .ok r => r.symtab
      | .error _ => []) = [("skip".toList, 0x9009)] := by decide

/-- Part 3, P1: an assembled source launched at 0x9000 has its bytes at `pc`. -/
theorem test_boot :
    (match boot 0x9000 0x9000 (["lda 10", "ldb 3", "add"].map String.toList) with
      | .ok s => some (s.pc, s.status, s.window.bytes)
      | .error _ => none) = some (0x9000, .running, [0x09, 0x00, 0x0A, 0x0A, 0x00, 0x03]) := by decide

/-! ## Witnesses: states and operands that meet the hypotheses of the statements, clause by clause -/

/-- DecodeOfEncodeIsTheInstruction: well-formed instructions with a register and with a bad letter. -/
theorem test_witness_DecodeOfEncode :
    (Instr.movRegReg (.reg .b) (.bad 0x7A)).wf = true ∧ (Instr.movRegImm (.reg .c) 0xFFFF 0xFFFF).wf = true := by decide

/-- DecodedBytesAreTheEncoding, DecodingReadsTheInstructionsBytesOnly: a window that decodes, and a different one with
the same instruction bytes. -/
theorem test_witness_DecodedBytes :
    decode ⟨0x0C, 0x62, 0x7A, 1, 2, 3⟩ = .ok (.movRegReg (.reg .b) (.bad 0x7A)) ∧
      (CodeWindow.bytes ⟨0x0C, 0x62, 0x7A, 1, 2, 3⟩).take 3 = (CodeWindow.bytes ⟨0x0C, 0x62, 0x7A, 9, 9, 9⟩).take 3 :=
  ⟨rfl, rfl⟩

/-- DecodingReadsTheInstructionsBytesOnly, second clause: the same first byte, other operands. -/
theorem test_witness_DecodingFirstByte :
    decode ⟨0x0C, 0x61, 0x61, 0, 0, 0⟩ = .ok (.movRegReg (.reg .a) (.reg .a)) ∧
      (⟨0x0C, 0x62, 0x7A, 1, 2, 3⟩ : CodeWindow).b0 = (⟨0x0C, 0x61, 0x61, 0, 0, 0⟩ : CodeWindow).b0 := ⟨rfl, rfl⟩

/-- IllegalOpcodeBytesAreRefused: the last legal byte, the first and the last illegal one. -/
theorem test_witness_IllegalOpcode :
    decode ⟨0x28, 0, 0, 0, 0, 0⟩ = .ok .printa ∧ decode ⟨0x29, 0, 0, 0, 0, 0⟩ = .error (.unknownOpcode 0x29) ∧
      decode ⟨0xFF, 0, 0, 0, 0, 0⟩ = .error (.unknownOpcode 0xFF) := ⟨rfl, rfl, rfl⟩

/-- OpcodeMapIsInjective. -/
theorem test_witness_OpcodeMap : Mnemonic.opcode .printa = Mnemonic.opcode .printa := rfl

/-- EncodedLengthIsLen: an emission, executions that go past themselves (an `int` that does not reset, `ret` on the
empty stack, a jump not taken), and a mnemonic on each side of the exception. -/
theorem test_witness_EncodedLength :
    (∃ q, (Pass2.start 0x9000).emit (.movRegImm (.reg .a) 0 1) [] = .ok q ∧ q.cursor = 0x9006) ∧
      (¬writesPc (.int 0x12) ∧ viewExec (.int 0x12) State.reset (·.pc) = some 0x9002) ∧
      (State.reset.stack = [] ∧ viewExec .ret State.reset (·.pc) = some 0x9001) ∧
      viewExec (.jz 0x1234) State.reset (fun t => decide (t.pc = 0x1234)) = some false ∧ Mnemonic.nop ≠ .movRegImm :=
  ⟨⟨_, rfl, rfl⟩, ⟨by simp [writesPc, Params.intReset], by decide⟩, by decide, by decide, by decide⟩

/-- WordsOfTheSpecDecode: windows that start with the first and with the last byte of the map. -/
theorem test_witness_OpcodeBytes :
    (⟨0x00, 1, 2, 3, 4, 5⟩ : CodeWindow).b0 = 0x00 ∧ (⟨0x28, 1, 2, 3, 4, 5⟩ : CodeWindow).b0 = 0x28 := ⟨rfl, rfl⟩

/-- StepRunsTheDecodedInstruction: running at an instruction, running at an illegal byte, and stopped. -/
theorem test_witness_StepRuns :
    (codeAt [0x02]).status = .running ∧ decode (codeAt [0x02]).window = .ok .add ∧
      (codeAt [0x29]).status = .running ∧ decode (codeAt [0x29]).window = .error (.unknownOpcode 0x29) ∧
      State.reset.halt.status ≠ .running :=
  ⟨by decide, rfl, by decide, rfl, by decide⟩

/-- UnknownOpcodeStopsTheEngine, RunningEngineAlwaysSteps: the first and the last byte outside the map, the second of
them at the last address. -/
theorem test_witness_UnknownOpcode :
    (codeAt [0x29]).status = .running ∧ Mnemonic.ofOpcode ((codeAt [0x29]).mem.read (codeAt [0x29]).pc.toNat) = none ∧
      view (State.launch [(0xFFFF, 0xFF)] 0xFFFF) (fun t => (t.pc, t.status)) =
        some (0, .faulted (.unknownOpcode 0xFF 0xFFFF)) := by decide

/-- FaultHasNoDataEffect: a step that faults. -/
theorem test_witness_Fault : view (codeAt [0x23, 0x7A]) (·.status) =
    some (.faulted (.unknownRegister 0x7A 0x9000)) := by decide

/-- InvariantIsKeptByEveryStep: a state that is not the reset state, with a next state. -/
theorem test_witness_Invariant :
    State.Inv { memAt [0x07] with b := 3, c := 5, z := true } ∧
      view { memAt [0x07] with b := 3, c := 5, z := true } (fun t => (t.z, t.n)) = some (false, true) :=
  ⟨⟨by decide, by decide⟩, by decide⟩

/-- ResetSetsEverythingButMemory: a state with empty memory, and one without. -/
theorem test_witness_Reset :
    ({ codeAt [] with a := 7, status := .halted }).mem = [] ∧ (codeAt [0x02]).mem ≠ [] := by decide

/-- LaunchWritesTheImageAndResets: an image that writes one address twice and the last address. -/
theorem test_witness_Launch :
    (∀ p ∈ [((0x9000 : Nat), (0x01 : Byte)), (0xFFFF, 0x02), (0x9000, 0x00)], p.1 < 65536) ∧
      (State.launch [(0x9000, 0x01), (0xFFFF, 0x02), (0x9000, 0x00)] 0x9000).mem = [(0xFFFF, 0x02)] := by decide

/-- ProgramCounterMovesAsListed: every way `pc` moves. -/
theorem test_witness_ProgramCounter :
    viewExec .add State.reset (·.pc) = some 0x9001 ∧ viewExec (.call 0x1234) State.reset (·.pc) = some 0x1234 ∧
      viewExec (.jz 0x1234) State.reset (·.pc) = some 0x9003 ∧
      viewExec .ret { State.reset with stack := [1, 2] } (·.pc) = some 2 ∧ viewExec .ret State.reset (·.pc) = some 0x9001 ∧
      viewExec (.int Params.intReset) { State.reset with pc := 0 } (·.pc) = some 0x9000 := by decide

/-- ProgramCounterMovesAsListed, first clause: an instruction that does not write `pc` again. -/
theorem test_witness_writesPc : ¬writesPc .add ∧ ¬writesPc (.int 0x12) := by simp [writesPc, Params.intReset]

/-- InstrBaseIsNeverWritten, and the frames over a next state: instructions outside each exception complete. -/
theorem test_witness_Frames :
    (nextState (step (codeAt [0x02]))).isSome = true ∧
      (∀ i ∈ [Instr.add, .int 0x12, .call 0], (nextState (exec i State.reset)).isSome = true) ∧
      ¬writesFlags .add ∧ ¬writesFlags (.int 0x12) ∧ ¬isStore .add ∧ ¬usesStack (.int 0x12) ∧
      Instr.call 0 ≠ .int Params.intReset ∧ ¬isOutput .add :=
  ⟨by decide, by decide, by simp [writesFlags], by simp [writesFlags, Params.intReset], id,
    by simp [usesStack, Params.intReset], by simp, id⟩

/-- RegistersAreWrittenAsListed: an instruction and a register it does not write. -/
theorem test_witness_Registers : ¬writesReg (.pop (.reg .a)) .b ∧
    viewExec (.pop (.reg .a)) { State.reset with stack := [5] } (·.a) = some 5 :=
  ⟨by simp [writesReg], by decide⟩

/-- NormalStopsAreThree: each stop from a running state. -/
theorem test_witness_NormalStops :
    State.reset.status = .running ∧ viewExec .halt State.reset (·.status) = some .halted ∧
      viewExec .syscall { State.reset with a := Params.sysExit } (·.status) = some .halted ∧
      viewExec (.int Params.intReset) State.reset (·.status) = some .halted := by decide

/-- FaultsComeFromThreeSources: each source from a running state. -/
theorem test_witness_FaultSources :
    viewExec (.movRegReg (.reg .a) (.bad 0x7A)) State.reset (·.status) =
        some (.faulted (.unknownRegister 0x7A 0x9000)) ∧
      viewExec .syscall { State.reset with a := 5 } (·.status) = some (.faulted (.unknownSyscall 5 0x9000)) ∧
      viewExec (.int 0x14) State.reset (·.status) = some (.faulted (.unknownInterrupt 0x14 0x9000)) := by decide

/-- DivModWriteAUnlessBIsZero: both clauses, the least divisor of the first among them. -/
theorem test_witness_DivMod :
    ({ State.reset with a := 7, b := 1 }).b ≠ 0 ∧ viewExec .div { State.reset with a := 7, b := 1 } (·.a) = some 7 ∧
      viewExec .mod { State.reset with a := 7, b := 1 } (·.a) = some 0 ∧
      ({ State.reset with a := 7 }).b = 0 ∧ viewExec .mod { State.reset with a := 7 } (·.a) = some 7 := by decide

/-- WordLoadsReadTwoBytes, WordStoresWriteTwoBytes: the last word in range, on a canonical memory. -/
theorem test_witness_WordAccess :
    (0xFFFE : Addr).toNat + 2 ≤ 65536 ∧ (memAt []).mem.wf = true ∧
      viewExec (.load 0xFFFE (.reg .b)) (memAt []) (·.b) = some 0xCAFE ∧
      viewExec (.movMemImm 0xFFFE 0x1234) (memAt []) (fun t => (t.mem.read 0xFFFE, t.mem.read 0xFFFF)) =
        some (0x12, 0x34) := by decide

/-- ByteStoresWriteOneByte: the last address, on a canonical memory. -/
theorem test_witness_ByteStore :
    (memAt []).mem.wf = true ∧
      viewExec (.mov8MemImm 0xFFFF 0x5A) (memAt []) (fun t => t.mem.read 0xFFFF) = some 0x5A := by decide

/-- OutOfRangeAccessIsSkipped: the boundary addresses of a smaller memory (S8), and the hardware's one. -/
theorem test_witness_OutOfRange :
    0x8000 < (0x7FFF : Addr).toNat + 2 ∧ 0x8000 < (0x8000 : Addr).toNat + 1 ∧ 65536 < (0xFFFF : Addr).toNat + 2 ∧
      ({ State.reset with a := 0x1234 }).loadWord 0x8000 .a 0x8000 = { State.reset with a := 0x1234 } := by decide

/-- LoadSeesTheEarlierStore: a store at the last word in range completes. -/
theorem test_witness_LoadAfterStore :
    (memAt []).mem.wf = true ∧ (0xFFFE : Addr).toNat + 2 ≤ 65536 ∧
      viewExec (.store 0xFFFE (.reg .c)) { memAt [] with c := 0xBEEF } (fun t => t.mem.readWord 0xFFFE) =
        some 0xBEEF := by decide

/-- StoreIsSeenByTheNextFetch: a store at the next opcode byte, at the byte after it, and of an opcode while running. -/
theorem test_witness_StoreIntoCode :
    (codeAt []).mem.wf = true ∧
      viewExec (.mov8MemImm 0x9004 0x01) (codeAt []) (fun t => decide (0x9004 = t.pc)) = some true ∧
      viewExec (.mov8MemImm 0x9005 0x01) (codeAt []) (fun t => decide (0x9005 = t.pc + 1)) = some true ∧
      Mnemonic.ofOpcode 0x01 = some .halt ∧ (codeAt []).status = .running := by decide

/-- FlagJumpsReadTheirFlag: each of the four jumps with its condition true and with it false. -/
theorem test_witness_FlagJumps :
    (∀ p ∈ [(Instr.jz 5, true), (.jnz 5, false), (.jn 5, false), (.jp 5, true)],
      viewExec p.1 { State.reset with z := true } (fun t => decide (t.pc = 5)) = some p.2) ∧
      ∀ p ∈ [(Instr.jz 5, false), (.jnz 5, true), (.jn 5, true), (.jp 5, false)],
        viewExec p.1 { State.reset with n := true } (fun t => decide (t.pc = 5)) = some p.2 := by decide

/-- DirectJumpsCompareBWithC: B equal to C, above it by one and below it by one. -/
theorem test_witness_DirectJumps :
    viewExec (.jeq 5) State.reset (·.pc) = some 5 ∧ viewExec (.jgt 5) State.reset (·.pc) = some 0x9003 ∧
      viewExec (.jgt 5) { State.reset with b := 1 } (·.pc) = some 5 ∧
      viewExec (.jlt 5) { State.reset with b := 1 } (·.pc) = some 0x9003 ∧
      viewExec (.jlt 5) { State.reset with c := 1 } (·.pc) = some 5 ∧
      viewExec (.jeq 5) { State.reset with c := 1 } (·.pc) = some 0x9003 := by decide

/-- RetPopsIntoPc, PushAndPopMoveTheTop: a stack with one entry, and the empty stack. -/
theorem test_witness_Stack :
    ({ State.reset with stack := [9] }).stack = [] ++ [9] ∧ State.reset.stack = [] ∧
      viewExec .ret { State.reset with stack := [9] } (fun t => (t.pc, t.stack)) = some (9, []) ∧
      viewExec (.pop (.reg .b)) { State.reset with stack := [9] } (fun t => (t.b, t.stack)) = some (9, []) := by decide

/-- BoundedStackOverflows: a full stack, and one with a single free place. -/
theorem test_witness_BoundedStack :
    ({ State.reset with stack := [1, 2] }).stack.length = 2 ∧ ({ State.reset with stack := [1] }).stack.length < 2 ∧
      ({ State.reset with stack := [1] }).call (some 2) 5 =
        { State.reset with stack := [1, 0x9003], pc := 5 } := by decide

/-- SyscallDispatchesOnA: every clause. -/
theorem test_witness_Syscall :
    ∀ p ∈ [((0 : Word), Status.running), (1, .running), (2, .running), (3, .running), (4, .halted)],
      viewExec .syscall { State.reset with a := p.1, b := 0x0141 } (·.status) = some p.2 := by decide

/-- UnknownNumbersStopTheEngine: the numbers next to the known ones. -/
theorem test_witness_UnknownNumbers :
    (∀ k ∈ [(5 : Word), 0x0100, 0xFFFF],
      k ∉ [Params.sysNop, Params.sysWait, Params.sysPrintNum, Params.sysPrintChar, Params.sysExit]) ∧
      ∀ k ∈ [(0x10 : Byte), 0x14, 0], k ∉ [Params.intPrint, Params.intWait, Params.intReset] :=
  ⟨by simp [Params.sysNop, Params.sysWait, Params.sysPrintNum, Params.sysPrintChar, Params.sysExit],
    by simp [Params.intPrint, Params.intWait, Params.intReset]⟩

/-- BadLetterStopsTheEngine: a bad letter before a good one, and after one. -/
theorem test_witness_BadLetter :
    viewExec (.movRegReg (.bad 0) (.reg .a)) State.reset (·.status) = some (.faulted (.unknownRegister 0 0x9000)) ∧
      viewExec (.movRegReg (.reg .a) (.bad 0xFF)) State.reset (·.status) =
        some (.faulted (.unknownRegister 0xFF 0x9000)) := by decide

/-- LabelIsRecordedBeforeItsLine: a line with a label and a directive, at the last address a label can have. -/
theorem test_witness_Label :
    (splitLine "x: .org 0x9200".toList).1 = some "x".toList ∧
      (match (Pass1.start 0xFFFF).line instrSize "x: .org 0x9200".toList with
        | .ok q => some (q.symtab, q.cursor)
        | .error _ => none) = some ([("x".toList, 0xFFFF)], 0x9200) := by decide

/-- UnknownMnemonicIsAWarning, DirectivesMoveTheCursor: the last cursor that each move fits. -/
theorem test_witness_UnknownMnemonic :
    (Pass1.start 0xFFFF).cursor + 1 ≤ 65536 ∧ (Pass1.start 0xFFFA).cursor + instrSize .movMemImm ≤ 65536 ∧
      (Pass1.start 0xFFFD).cursor + dbCount ".db 1,2,3".toList ≤ 65536 := by decide

/-- DirectivesMoveTheCursor: the greatest literal of `.org`, after a blank and after a tab. -/
theorem test_witness_Origin :
    (match parseHexWord (trim "0xFFFF".toList) with | .ok v => some v | .error _ => none) = some 0xFFFF ∧
      isSpace ' ' = true ∧ isSpace '\t' = true := by decide

/-- OriginDirectivePlacesTheNextByte: a following line with a label, and one without that assembles alone. -/
theorem test_witness_OriginNext :
    lineStmt "x: jmp x".toList = .instr .jmp " x".toList ∧
      (asm [".org 0x9100", "nop", "x: jmp x"]).map (·.2.1) =
        some [(0x9100, 0x00), (0x9101, 0x19), (0x9102, 0x91), (0x9103, 0x01)] ∧
      (splitLine "int 0x12".toList).1 = none ∧ lineStmt "int 0x12".toList = .instr .int " 0x12".toList ∧
      (match assembleStmt [] .int " 0x12".toList with | .ok p => some p.1 | .error _ => none) = some (.int 0x12) := by
  decide

/-- JumpOperandIsTheRecordedAddress: a literal, a recorded name, and an unrecorded one. -/
theorem test_witness_JumpOperand :
    (has0x "0xFFFF".toList = true ∧ (match parseHexWord "0xFFFF".toList with | .ok v => some v | .error _ => none) =
        some 0xFFFF) ∧
      (has0x "loop".toList = false ∧ SymTab.find [("loop".toList, 0x9009)] "loop".toList = some 0x9009) ∧
      (has0x "9000".toList = false ∧ SymTab.find [("loop".toList, 0x9009)] "9000".toList = none ∧
        (Pass2.start 0xFFFD).cursor + 3 ≤ 65536) := by decide

/-- AssembledStatementIsWellFormed. -/
theorem test_witness_AssembledStatement :
    (match assembleStmt [] .load " 0x8000 , b".toList with | .ok p => some p.1 | .error _ => none) =
      some (.load 0x8000 (.reg .b)) := by decide

/-- LabelDriftIsTheSumOfItsCauses: a source with every cause of drift that is not refused (program P5, V-ASM-4,
V-ASM-5, V-ASM-7). -/
theorem test_witness_LabelDrift :
    (match assemble 0x9000
        (["mov_reg_imm a 0 1", "x: .db 1,2,3", "y: frob", "z: .org 0x9100", "w: halt"].map String.toList) with
      | .ok r => some (r.symtab.map (fun p => p.2.toNat), r.reached.map (·.2))
      | .error _ => none) = some ([0x9004, 0x9007, 0x9008, 0x9100], [0x9006, 0x9006, 0x9006, 0x9100]) := by decide

/-- LabelsOfWellFormedSourceAreTrue: V-ASM-11 is well-formed; program P5 is not. -/
theorem test_witness_WellFormedSource :
    wellFormedSource 0x9000 (["start: lda 5", "call sub", "halt", "sub: inc a", "ret"].map String.toList) = true ∧
      wellFormedSource 0x9000 (["jmp skip", "mov_reg_imm a 0x0000 0x0001", "skip: printa"].map String.toList) =
        false := by decide

end Sys2Proof.Machine
end

section
/-! PROOFS of the family `10_state`: what the engine fetches, what one step does with it (R37), and the registers after
Reset (R22). -/

namespace Sys2Proof.Machine

/-! ## Fetching (R9, R25) -/

/-- A code byte is read `k` places after `pc`, modulo 2^16. -/
theorem State.codeByte_eq_read (s : State) (k : Nat) :
    s.codeByte k = s.mem.read ((s.pc.toNat + k) % 65536) := by
  simp [State.codeByte, BitVec.toNat_add]

/-- The window holds the six code bytes in address order. -/
theorem State.window_bytes (s : State) : s.window.bytes = [0, 1, 2, 3, 4, 5].map s.codeByte := rfl

/-- The byte that selects the mnemonic is the one at `pc`. -/
@[simp] theorem State.window_b0 (s : State) : s.window.b0 = s.mem.read s.pc.toNat := by
  simp [State.window, State.codeByte]

/-- What a window decodes to has the window's first byte as its opcode. -/
theorem opcode_of_decode_eq_ok {w : CodeWindow} {i : Instr} (h : decode w = .ok i) : i.mnemonic.opcode = w.b0 := by
  obtain ⟨m, hm, rfl⟩ := decode_eq_ok h
  rw [mnemonic_decodeOperands, Mnemonic.opcode_of_ofOpcode hm]

/-- A byte that selects no mnemonic is the opcode of none. -/
theorem ne_opcode_of_ofOpcode_eq_none {k : Byte} (h : Mnemonic.ofOpcode k = none) (m : Mnemonic) : k ≠ m.opcode := by
  rintro rfl
  simp at h

/-! ## Taking UnknownOpcode (R251) -/

/-- Raising `UnknownOpcode` moves `pc` past the opcode byte, modulo 2^16. -/
theorem State.raiseUnknownOpcode_pc_toNat (s : State) (k : Byte) :
    (s.raiseUnknownOpcode k).pc.toNat = (s.pc.toNat + 1) % 65536 := by
  simp [State.raiseUnknownOpcode, BitVec.toNat_add]

/-- Raising `UnknownOpcode` records the byte and its address. -/
@[simp] theorem State.raiseUnknownOpcode_status (s : State) (k : Byte) :
    (s.raiseUnknownOpcode k).status = .faulted (.unknownOpcode k s.pc) := rfl

/-- Raising `UnknownOpcode` changes `pc` and `status` only. -/
theorem State.raiseUnknownOpcode_onlyStatus (s : State) (k : Byte) : OnlyStatus s (s.raiseUnknownOpcode k) :=
  ⟨fun _ => by simp [State.raiseUnknownOpcode], ⟨rfl, rfl⟩, rfl, fun _ => rfl, rfl, rfl, rfl⟩

/-! ## The branches of the step (R37) -/

/-- A running engine at an instruction runs it. -/
theorem step_of_decode_ok {s : State} {i : Instr} (hs : s.status = .running) (h : decode s.window = .ok i) :
    step s = exec i s := by
  simp [step, hs, h]

/-- A running engine at an illegal byte raises `UnknownOpcode`. -/
theorem step_of_decode_error {s : State} {k : Byte} (hs : s.status = .running)
    (h : decode s.window = .error (.unknownOpcode k)) : step s = .next (s.raiseUnknownOpcode k) := by
  simp [step, hs, h]

/-- A stopped engine has no next state. -/
theorem step_ne_next_of_not_running {s : State} (hs : s.status ≠ .running) (t : State) : step s ≠ .next t :=
  fun h => hs (step_cases h).1

/-! ## The state after Reset (R22) -/

@[simp] theorem State.reset_getReg (q : Reg) : State.reset.getReg q = 0 := by
  cases q <;> rfl

/-! ## The obligations -/

/-- Settles O9: the window's bytes, then the three branches of the step. -/
theorem stepRunsTheDecodedInstruction : Obligations.StepRunsTheDecodedInstruction := by
  intro s
  refine ⟨?window, ?runs, ?illegal, step_ne_next_of_not_running⟩
  case window => simp only [State.window_bytes, State.codeByte_eq_read, List.map]
  case runs =>
    intro hs i hi
    exact ⟨by rw [opcode_of_decode_eq_ok hi, State.window_b0], step_of_decode_ok hs hi⟩
  case illegal =>
    intro hs k hk
    obtain ⟨hnone, herr⟩ := decode_eq_error hk
    rw [State.window_b0] at hnone herr
    have hbyte : k = s.mem.read s.pc.toNat := by simpa using herr
    exact ⟨ne_opcode_of_ofOpcode_eq_none hnone, s.raiseUnknownOpcode k, step_of_decode_error hs hk, rfl, hbyte,
      s.raiseUnknownOpcode_pc_toNat k, s.raiseUnknownOpcode_onlyStatus k⟩

/-- Settles O15, register by register: at power-on, and after the external Reset of any state at any base. -/
theorem resetClearsTheRegisters : Obligations.ResetClearsTheRegisters :=
  fun r => ⟨State.reset_getReg r, fun s base => s.applyReset_getReg base r⟩

end Sys2Proof.Machine
end

section
/-! PROOFS of the family `20_memory`: the byte order of the 16-bit operands in the instruction stream (R52). -/

namespace Sys2Proof

/-! ## The 16-bit operand's two bytes -/

/-- A 16-bit operand is laid down as the quotient and then the remainder by 256. -/
theorem exists_encodeWord_eq (v : Word) :
    ∃ h l : Byte, h.toNat = v.toNat / 256 ∧ l.toNat = v.toNat % 256 ∧ encodeWord v = [h, l] :=
  ⟨hi8 v, lo8 v, hi8_toNat v, lo8_toNat v, rfl⟩

/-! ## The obligation -/

/-- Settles O6, format by format: every operand list is made of `encodeWord`, every decoded operand of `joinBytes`. -/
theorem operandsAreHighByteFirst : Obligations.OperandsAreHighByteFirst := by
  refine ⟨fun v => ?encoded, fun w => ?decoded⟩
  case encoded =>
    obtain ⟨h, l, hh, hl, hv⟩ := exists_encodeWord_eq v
    refine ⟨h, l, hh, hl, ?word, ?wordReg, ?regWord, ?wordByte, ?wordWord, ?regWordWord⟩
    case word | wordReg | regWord | wordByte => simp [encodeOperands, hv]
    case wordWord =>
      intro u
      obtain ⟨x, y, -, -, hu⟩ := exists_encodeWord_eq u
      exact ⟨x, y, by simp [encodeOperands, hv, hu]⟩
    case regWordWord =>
      intro r u
      obtain ⟨x, y, -, -, hu⟩ := exists_encodeWord_eq u
      exact ⟨encodeReg r, x, y, by simp [encodeOperands, hv, hu]⟩
  case decoded =>
    refine ⟨joinBytes w.b1 w.b2, joinBytes w.b2 w.b3, joinBytes w.b3 w.b4, joinBytes w.b4 w.b5,
      joinBytes_toNat .., joinBytes_toNat .., joinBytes_toNat .., joinBytes_toNat ..,
      ?word, ?wordReg, ?regWord, rfl, rfl, decodeReg w.b1, rfl⟩
    case word | wordReg | regWord => simp [decodeOperands]

end Sys2Proof
end

section
/-! PROOFS of the family `48_symbol_resolver`: the label recorded before its line (R219), the operand of a jump (R229),
and where the instructions after `.org` are placed (R234). -/

namespace Sys2Proof.Machine

/-! ## Results that are mapped -/

/-- A mapped result is accepted where the result is. -/
theorem exceptMap_eq_ok_iff {ε α β : Type} {f : α → β} {x : Except ε α} {y : β} :
    x.map f = .ok y ↔ ∃ a, x = .ok a ∧ f a = y := by
  cases x <;> simp [Except.map]

/-- The cursor moves where the bytes fit the address space (R216). -/
theorem moveCursor_of_le {c k : Nat} (h : c + k ≤ Config.memSize) : moveCursor c k = .ok (c + k) := if_pos h

/-! ## One line of pass 1 -/

/-- A line without a label is its statement (R225). -/
theorem Pass1.line_of_no_label {l : Text} (hl : (splitLine l).1 = none) (size : Mnemonic → Nat) (p : Pass1) :
    p.line size l = p.stmt size (lineStmt l) := by
  simp [Pass1.line, hl]

/-- A line of an instruction alone moves pass 1 by the size, where that fits the address space. -/
theorem Pass1.line_instr_of_le {size : Mnemonic → Nat} {p : Pass1} {l u : Text} {k : Mnemonic}
    (hnone : (splitLine l).1 = none) (hl : lineStmt l = .instr k u) (h : p.cursor + size k ≤ Config.memSize) :
    p.line size l = .ok { p with cursor := p.cursor + size k } := by
  simp [Pass1.line_of_no_label hnone, hl, Pass1.stmt, moveCursor_of_le h, Except.map]

/-- A line with a label that pass 1 accepts: the label is recorded, then the statement is handled (R219). -/
theorem Pass1.line_eq_ok_of_label {size : Mnemonic → Nat} {p q : Pass1} {l name : Text}
    (hl : (splitLine l).1 = some name) (h : p.line size l = .ok q) :
    ∃ r, p.label name = .ok r ∧ r.stmt size (lineStmt l) = .ok q := by
  simp only [Pass1.line, hl] at h
  split at h
  · exact ⟨_, ‹_›, h⟩
  · cases h

/-- A label that pass 1 accepts is appended at the cursor, which is an address (R219). -/
theorem Pass1.label_eq_ok {p r : Pass1} {name : Text} (h : p.label name = .ok r) :
    p.cursor < Config.memSize ∧ r = { p with symtab := p.symtab ++ [(name, BitVec.ofNat 16 p.cursor)] } := by
  unfold Pass1.label at h
  split at h
  · cases h
  · split at h
    · cases h
    · split at h
      · cases h
        exact ⟨‹_›, rfl⟩
      · cases h

/-- A statement of pass 1 does not read the symbol table and leaves it as it is: over another table it does the same. -/
theorem Pass1.stmt_withSymtab (size : Mnemonic → Nat) (p : Pass1) (tab : SymTab) (st : Stmt) :
    { p with symtab := tab }.stmt size st = (p.stmt size st).map fun u => { u with symtab := tab } := by
  cases st with
  | empty => rfl
  | org t => cases h : orgOperand t <;> simp [Pass1.stmt, Except.map, h]
  | db t => cases h : moveCursor p.cursor (dbCount t) <;> simp [Pass1.stmt, Except.map, h]
  | instr m t => cases h : moveCursor p.cursor (size m) <;> simp [Pass1.stmt, Except.map, h]
  | unknown t => cases h : moveCursor p.cursor 1 <;> simp [Pass1.stmt, Except.map, h]

/-! ## One line of pass 2 -/

/-- Where the instruction's bytes fit, they are emitted at the cursor (R228). -/
theorem Pass2.emit_of_le {p : Pass2} {i : Instr} (h : p.cursor + i.mnemonic.len ≤ Config.memSize) (ds : List Diag) :
    p.emit i ds = .ok { p with
      cursor := p.cursor + i.mnemonic.len, image := p.image ++ placeBytes p.cursor (encode i),
      diags := p.diags ++ ds } := by
  simp [Pass2.emit, moveCursor_of_le h, Except.map]

/-- An emitted instruction's bytes stand at the cursor (R228). -/
theorem Pass2.emit_eq_ok {p q : Pass2} {i : Instr} {ds : List Diag} (h : p.emit i ds = .ok q) :
    q.image = p.image ++ placeBytes p.cursor (encode i) := by
  obtain ⟨c, -, rfl⟩ := exceptMap_eq_ok_iff.mp h
  rfl

@[simp] theorem Pass2.pastLabel_none (p : Pass2) : p.pastLabel none = p := rfl
@[simp] theorem Pass2.pastLabel_cursor (p : Pass2) (o : Option Text) : (p.pastLabel o).cursor = p.cursor := by
  cases o <;> rfl
@[simp] theorem Pass2.pastLabel_image (p : Pass2) (o : Option Text) : (p.pastLabel o).image = p.image := by
  cases o <;> rfl

/-- A line without a label is its statement (R231). -/
theorem Pass2.line_of_no_label {l : Text} (hl : (splitLine l).1 = none) (tab : SymTab) (p : Pass2) :
    p.line tab l = p.stmt tab (lineStmt l) := by
  simp [Pass2.line, hl]

/-- An instruction statement that assembles is emitted. -/
theorem Pass2.stmt_instr_of_ok {tab : SymTab} {k : Mnemonic} {u : Text} {i : Instr} {ds : List Diag}
    (h : assembleStmt tab k u = .ok (i, ds)) (p : Pass2) : p.stmt tab (.instr k u) = p.emit i ds := by
  simp [Pass2.stmt, h]

/-- A line of an instruction alone that assembles is emitted by pass 2, where its bytes fit the address space. -/
theorem Pass2.line_instr_of_le {tab : SymTab} {p : Pass2} {l u : Text} {k : Mnemonic} {i : Instr} {ds : List Diag}
    (hnone : (splitLine l).1 = none) (hl : lineStmt l = .instr k u) (hi : assembleStmt tab k u = .ok (i, ds))
    (h : p.cursor + i.mnemonic.len ≤ Config.memSize) :
    p.line tab l = .ok { p with
      cursor := p.cursor + i.mnemonic.len, image := p.image ++ placeBytes p.cursor (encode i),
      diags := p.diags ++ ds } := by
  rw [Pass2.line_of_no_label hnone, hl, Pass2.stmt_instr_of_ok hi, Pass2.emit_of_le h]

/-- A line with an instruction that pass 2 accepts puts the instruction's bytes at the cursor, label or not. -/
theorem Pass2.line_instr_eq_ok {tab : SymTab} {p q : Pass2} {l u : Text} {k : Mnemonic}
    (hl : lineStmt l = .instr k u) (h : p.line tab l = .ok q) :
    ∃ i ds, assembleStmt tab k u = .ok (i, ds) ∧ q.image = p.image ++ placeBytes p.cursor (encode i) := by
  simp only [Pass2.line, hl, Pass2.stmt] at h
  split at h
  · exact ⟨_, _, ‹_›, by simpa using Pass2.emit_eq_ok h⟩
  · cases h

/-! ## The operand of a jump or call (R229) -/

theorem jumpOperand_of_has0x {t : Text} {v : Addr} (tab : SymTab) (h : has0x t = true) (hv : parseHexWord t = .ok v) :
    jumpOperand tab t = .ok (v, []) := by
  simp [jumpOperand, h, hv, Except.map]

theorem jumpOperand_of_find_some {tab : SymTab} {t : Text} {v : Addr} (h : has0x t = false)
    (hv : tab.find t = some v) : jumpOperand tab t = .ok (v, []) := by
  simp [jumpOperand, h, hv]

theorem jumpOperand_of_find_none {tab : SymTab} {t : Text} (h : has0x t = false) (hv : tab.find t = none) :
    jumpOperand tab t = .ok (0, [.unresolvedLabel t]) := by
  simp [jumpOperand, h, hv]

/-- The jumps and calls, each with its instruction. -/
def jumpForms : List (Mnemonic × (Addr → Instr)) :=
  [(.jmp, .jmp), (.jz, .jz), (.jnz, .jnz), (.jn, .jn), (.jp, .jp), (.jeq, .jeq), (.jgt, .jgt), (.jlt, .jlt),
    (.call, .call)]

/-- What the nine jumps and calls share: the operand is a jump operand, and the format is one address. -/
structure IsJumpForm (m : Mnemonic) (k : Addr → Instr) : Prop where
  assembleInstr_eq : ∀ tab, assembleInstr tab m = asmJump tab k
  mnemonic_eq : ∀ v, (k v).mnemonic = m
  len_eq : m.len = 3
  encodeOperands_eq : ∀ v, encodeOperands (k v) = encodeWord v
  decodeOperands_eq : ∀ w, decodeOperands m w = k (joinBytes w.b1 w.b2)

/-- Each of the nine is of that form. -/
theorem isJumpForm_of_mem {p : Mnemonic × (Addr → Instr)} (h : p ∈ jumpForms) : IsJumpForm p.1 p.2 := by
  simp only [jumpForms, List.mem_cons, List.not_mem_nil, or_false] at h
  rcases h with rfl | rfl | rfl | rfl | rfl | rfl | rfl | rfl | rfl <;>
    exact ⟨fun _ => rfl, fun _ => rfl, rfl, fun _ => rfl, fun _ => rfl⟩

section
variable {m : Mnemonic} {k : Addr → Instr} (hk : IsJumpForm m k)
include hk

/-- The statement's instruction takes the address its operand stands for. -/
theorem IsJumpForm.assembleInstr_of_jumpOperand {tab : SymTab} {t : Text} {v : Addr} {ds : List Diag}
    (h : jumpOperand tab t = .ok (v, ds)) : assembleInstr tab m [t] = .ok (k v, ds) := by
  simp [hk.assembleInstr_eq, asmJump, h, Except.map]

/-- A jump or call is three bytes long. -/
theorem IsJumpForm.len_mnemonic (v : Addr) : (k v).mnemonic.len = 3 := by
  rw [hk.mnemonic_eq, hk.len_eq]

/-- The bytes are the opcode and the address, high byte first. -/
theorem IsJumpForm.encode_eq (v : Addr) : encode (k v) = [m.opcode, hi8 v, lo8 v] := by
  simp [encode, hk.mnemonic_eq, hk.encodeOperands_eq, encodeWord]

/-- The bytes of a jump decode to it. -/
theorem IsJumpForm.decode_encode (v : Addr) : decode (CodeWindow.ofBytes (encode (k v))) = .ok (k v) := by
  simp [hk.encode_eq, CodeWindow.ofBytes, decode, hk.decodeOperands_eq]

end

/-! ## Passes over lines -/

theorem Pass1.lines_cons_of_ok {size : Mnemonic → Nat} {p q : Pass1} {l : Text} (h : p.line size l = .ok q)
    (ls : List Text) : p.lines size (l :: ls) = q.lines size ls := by
  simp [Pass1.lines, h]

theorem Pass2.lines_cons_of_ok {tab : SymTab} {p q : Pass2} {l : Text} (h : p.line tab l = .ok q) (ls : List Text) :
    p.lines tab (l :: ls) = q.lines tab ls := by
  simp [Pass2.lines, h]

@[simp] theorem Pass1.lines_singleton (size : Mnemonic → Nat) (p : Pass1) (l : Text) :
    p.lines size [l] = p.line size l := by
  cases h : p.line size l <;> simp [Pass1.lines, h]

@[simp] theorem Pass2.lines_singleton (tab : SymTab) (p : Pass2) (l : Text) : p.lines tab [l] = p.line tab l := by
  cases h : p.line tab l <;> simp [Pass2.lines, h]

/-- A source assembles where both passes accept it, the second over the table of the first (R232). -/
theorem assemble_eq_ok_iff {origin : Addr} {ls : List Text} {r : Assembly} :
    assemble origin ls = .ok r ↔ ∃ p q, (Pass1.start origin).lines instrSize ls = .ok p ∧
      (Pass2.start origin).lines p.symtab ls = .ok q ∧
      r = ⟨p.symtab, q.image, q.cursor, p.diags ++ q.diags, q.reached⟩ := by
  unfold assemble assembleWith
  cases h1 : (Pass1.start origin).lines instrSize ls with
  | error e => simp
  | ok p => cases h2 : (Pass2.start origin).lines p.symtab ls <;> simp [h2, eq_comm]

/-! ## `.org 0x9100` and a one-byte instruction (R234) -/

theorem splitLine_org9100 : (splitLine ".org 0x9100".toList).1 = none := by decide

theorem lineStmt_org9100 : lineStmt ".org 0x9100".toList = .org " 0x9100".toList := by decide

theorem orgOperand_9100 : orgOperand " 0x9100".toList = .ok 0x9100 := rfl

theorem Pass1.line_org9100 (size : Mnemonic → Nat) (p : Pass1) :
    p.line size ".org 0x9100".toList = .ok { p with cursor := 0x9100 } := by
  rw [Pass1.line_of_no_label splitLine_org9100, lineStmt_org9100, Pass1.stmt, orgOperand_9100]
  rfl

theorem Pass2.line_org9100 (tab : SymTab) (p : Pass2) :
    p.line tab ".org 0x9100".toList = .ok { p with cursor := 0x9100 } := by
  rw [Pass2.line_of_no_label splitLine_org9100, lineStmt_org9100, Pass2.stmt, orgOperand_9100]
  rfl

/-- A mnemonic alone on a line defines no label. -/
theorem splitLine_spelling (m : Mnemonic) : (splitLine (spelling m)).1 = none := by
  cases m <;> decide

/-- A mnemonic alone on a line is its statement, without operands. -/
theorem lineStmt_spelling (m : Mnemonic) : lineStmt (spelling m) = .instr m [] := by
  cases m <;> decide

theorem instrSize_le_six (m : Mnemonic) : instrSize m ≤ 6 := by
  cases m <;> decide

theorem len_le_six (m : Mnemonic) : m.len ≤ 6 := by
  cases m <;> decide

/-- The mnemonics of the format without operands (R81). -/
def oneByteMnemonics : List Mnemonic := [.nop, .halt, .add, .sub, .mul, .div, .mod, .cmp, .ret, .syscall, .printa]

/-- A mnemonic of the format without operands assembles alone to an instruction that is its opcode byte. -/
theorem assembleStmt_oneByte {m : Mnemonic} (hm : m ∈ oneByteMnemonics) :
    ∃ i, (∀ tab, assembleStmt tab m [] = .ok (i, [])) ∧ i.mnemonic = m ∧ encode i = [m.opcode] := by
  simp only [oneByteMnemonics, List.mem_cons, List.not_mem_nil, or_false] at hm
  rcases hm with rfl | rfl | rfl | rfl | rfl | rfl | rfl | rfl | rfl | rfl | rfl <;>
    exact ⟨_, fun _ => rfl, rfl, rfl⟩

theorem len_oneByte : ∀ m ∈ oneByteMnemonics, m.len = 1 := by decide

theorem instrSize_oneByte : ∀ m ∈ oneByteMnemonics, instrSize m = 1 := by decide

/-- Pass 1 reaches the third line at 0x9101 with an empty table, whatever the origin. -/
theorem Pass1.lines_org9100_oneByte (origin : Addr) {m : Mnemonic} (hm : m ∈ oneByteMnemonics) (l : Text) :
    (Pass1.start origin).lines instrSize [".org 0x9100".toList, spelling m, l] =
      Pass1.line instrSize ⟨0x9101, [], []⟩ l := by
  have hsize := instrSize_oneByte m hm
  have hone : Pass1.line instrSize ⟨0x9100, [], []⟩ (spelling m) = .ok ⟨0x9101, [], []⟩ := by
    rw [Pass1.line_instr_of_le (splitLine_spelling m) (lineStmt_spelling m) (by rw [hsize]; decide), hsize]
  rw [Pass1.lines_cons_of_ok (Pass1.line_org9100 ..), Pass1.start, Pass1.lines_cons_of_ok hone, Pass1.lines_singleton]

/-- Pass 2 reaches the third line at 0x9101 with the opcode byte at 0x9100, whatever the origin. -/
theorem Pass2.lines_org9100_oneByte (origin : Addr) (tab : SymTab) {m : Mnemonic} (hm : m ∈ oneByteMnemonics)
    (l : Text) :
    (Pass2.start origin).lines tab [".org 0x9100".toList, spelling m, l] =
      Pass2.line tab ⟨0x9101, [(0x9100, m.opcode)], [], []⟩ l := by
  obtain ⟨i, hi, hmi, hbytes⟩ := assembleStmt_oneByte hm
  have hlen : i.mnemonic.len = 1 := by rw [hmi, len_oneByte m hm]
  have hone : Pass2.line tab ⟨0x9100, [], [], []⟩ (spelling m) = .ok ⟨0x9101, [(0x9100, m.opcode)], [], []⟩ := by
    rw [Pass2.line_instr_of_le (splitLine_spelling m) (lineStmt_spelling m) (hi tab) (by rw [hlen]; decide), hlen,
      hbytes]
    rfl
  rw [Pass2.lines_cons_of_ok (Pass2.line_org9100 ..), Pass2.start, Pass2.lines_cons_of_ok hone, Pass2.lines_singleton]

/-! ## The obligations -/

/-- Settles O53: the label step, then the statement, which is the same over the table without the label. -/
theorem labelIsRecordedBeforeItsLine : Obligations.LabelIsRecordedBeforeItsLine := by
  intro size p q l name hl h
  obtain ⟨r, hlabel, hstmt⟩ := Pass1.line_eq_ok_of_label hl h
  obtain ⟨hc, rfl⟩ := Pass1.label_eq_ok hlabel
  rw [Pass1.stmt_withSymtab, exceptMap_eq_ok_iff] at hstmt
  obtain ⟨u, hu, rfl⟩ := hstmt
  exact ⟨BitVec.ofNat 16 p.cursor, BitVec.toNat_ofNat .. |>.trans (Nat.mod_eq_of_lt hc), rfl, u, hu, rfl, rfl⟩

/-- Settles O55: the three readings of the operand, for what the nine jumps and calls share. -/
theorem jumpOperandIsTheRecordedAddress : Obligations.JumpOperandIsTheRecordedAddress := by
  intro p hp tab t
  have hk : IsJumpForm p.1 p.2 := isJumpForm_of_mem hp
  refine ⟨?literal, ?recorded, ?unresolved⟩
  case literal =>
    intro v h0x hv
    exact hk.assembleInstr_of_jumpOperand (jumpOperand_of_has0x tab h0x hv)
  case recorded =>
    intro v h0x hv
    exact ⟨hk.assembleInstr_of_jumpOperand (jumpOperand_of_find_some h0x hv), hk.decode_encode v⟩
  case unresolved =>
    intro h0x hnone
    refine ⟨hk.assembleInstr_of_jumpOperand (jumpOperand_of_find_none h0x hnone), fun q hq => ?_⟩
    have hemit := Pass2.emit_of_le (p := q) (i := p.2 0) (by rwa [hk.len_mnemonic]) [.unresolvedLabel t]
    exact ⟨_, hemit, by simp [hk.len_mnemonic], rfl, by simp [hk.encode_eq, placeBytes, hi8, lo8]⟩

/-- Settles O56: both passes stand at 0x9101 before the third line, which emits its bytes there. -/
theorem originDirectivePlacesTheNextByte : Obligations.OriginDirectivePlacesTheNextByte := by
  intro origin l k u hl m hm
  simp only [assemble_eq_ok_iff, Pass1.lines_org9100_oneByte origin hm, Pass2.lines_org9100_oneByte origin _ hm,
    ← placeBytes_eq_zipIdx]
  refine ⟨?placed, ?assembles⟩
  case placed =>
    rintro r ⟨p, q, -, hq, rfl⟩
    exact Pass2.line_instr_eq_ok hl hq
  case assembles =>
    intro i ds hnone hstmt
    have hsize : 0x9101 + instrSize k ≤ Config.memSize := Nat.add_le_add_left (instrSize_le_six k) _ |>.trans (by decide)
    have hlen : 0x9101 + i.mnemonic.len ≤ Config.memSize :=
      Nat.add_le_add_left (len_le_six _) _ |>.trans (by decide)
    have hpass1 := Pass1.line_instr_of_le hnone hl (p := ⟨0x9101, [], []⟩) hsize
    have hpass2 := Pass2.line_instr_of_le hnone hl (p := ⟨0x9101, [(0x9100, m.opcode)], [], []⟩) hstmt hlen
    exact ⟨_, ⟨_, _, hpass1, hpass2, rfl⟩, rfl, rfl⟩

end Sys2Proof.Machine
end

section
/-! PROOFS of the family `60_exceptions`: where a fault can come from inside an instruction, and what taking it leaves
unchanged (R250 to R257). -/

namespace Sys2Proof.Machine

/-! ## The operations that never touch `status` -/

@[simp] theorem State.loadWord_status (s : State) (size : Nat) (r : Reg) (addr : Addr) :
    (s.loadWord size r addr).status = s.status := by
  obtain ⟨-, h⟩ | ⟨-, h⟩ := s.loadWord_cases size r addr <;> simp [h]

@[simp] theorem State.storeWord_status (s : State) (size : Nat) (addr : Addr) (v : Word) :
    (s.storeWord size addr v).status = s.status := by
  obtain ⟨-, h⟩ | ⟨-, h⟩ := s.storeWord_cases size addr v <;> simp [h]

@[simp] theorem State.loadByte_status (s : State) (size : Nat) (r : Reg) (addr : Addr) :
    (s.loadByte size r addr).status = s.status := by
  obtain ⟨-, h⟩ | ⟨-, h⟩ := s.loadByte_cases size r addr <;> simp [h]

@[simp] theorem State.storeByte_status (s : State) (size : Nat) (addr : Addr) (v : Byte) :
    (s.storeByte size addr v).status = s.status := by
  obtain ⟨-, h⟩ | ⟨-, h⟩ := s.storeByte_cases size addr v <;> simp [h]

@[simp] theorem State.compareFlags_status (s : State) (m : Numerics) (b c : Word) :
    (s.compareFlags m b c).status = s.status := rfl

@[simp] theorem State.jumpIf_status (s : State) (taken : Bool) (target : Addr) :
    (s.jumpIf taken target).status = s.status := by
  cases taken <;> rfl

/-- The hardware's stack is unbounded, so its `Push` cannot fault (D18). -/
@[simp] theorem State.pushThen_default (s : State) (x : Addr) (v : Word) (k : State → State) :
    s.pushThen Params.stackDepth x v k = k (s.push v) := rfl

@[simp] theorem State.call_default_status (s : State) (addr : Addr) :
    (s.call Params.stackDepth addr).status = s.status := rfl

/-- `Pop` keeps `status` when what follows it does. -/
theorem State.popThen_status (s : State) {k : State → Word → State} (hk : ∀ u v, (k u v).status = u.status) :
    (s.popThen k).status = s.status := by
  obtain ⟨st, v, -, h⟩ | ⟨-, h⟩ := s.popThen_cases k <;> simp [h, hk]

/-! ## How an instruction ends (R250, R261) -/

/-- The three ways an instruction that has moved to `u` can end in `t`: with `status` as it was, halted, or in `u`
itself with a fault raised. -/
def State.GoesOnHaltsOrRaises (u t : State) : Prop :=
  t.status = u.status ∨ t.status = .halted ∨ ∃ r, t = u.raise r

/-- A register operand adds no other way to end than raising `UnknownRegister`. -/
theorem State.GoesOnHaltsOrRaises.of_withReg {u : State} {k : Reg → State} (hk : ∀ r, u.GoesOnHaltsOrRaises (k r))
    (o : RegOperand) (x : Addr) : u.GoesOnHaltsOrRaises (withReg o x u k) := by
  obtain ⟨r, -, h⟩ | ⟨b, -, h⟩ := withReg_cases o x u k
  · exact h ▸ hk r
  · exact .inr (.inr ⟨_, h⟩)

/-- Every instruction completes, and ends in one of the three ways from the state past it: a fault is raised before any
other effect. -/
theorem exec_goesOnHaltsOrRaises (i : Instr) (s : State) :
    ∃ t, exec i s = .next t ∧ (s.advance i.mnemonic.len).GoesOnHaltsOrRaises t := by
  cases i with
  | inc | movRegImm | load | store | movRegMem | movRegMem2 | movMemReg | push =>
    exact ⟨_, rfl, .of_withReg (fun _ => .inl (by simp)) _ _⟩
  | pop => exact ⟨_, rfl, .of_withReg (fun _ => .inl (State.popThen_status _ fun _ _ => by simp)) _ _⟩
  | movRegReg => exact ⟨_, rfl, .of_withReg (fun _ => .of_withReg (fun _ => .inl (by simp)) _ _) _ _⟩
  | ret => exact ⟨_, rfl, .inl (State.popThen_status _ fun _ _ => rfl)⟩
  | halt => exact ⟨_, rfl, .inr (.inl rfl)⟩
  | int v =>
    refine ⟨_, rfl, ?_⟩
    split_ifs
    · exact .inl rfl
    · exact .inl rfl
    · exact .inr (.inl rfl)
    · exact .inr (.inr ⟨_, rfl⟩)
  | syscall =>
    refine ⟨_, rfl, ?_⟩
    split_ifs
    · exact .inl rfl
    · exact .inl rfl
    · exact .inl rfl
    · exact .inl rfl
    · exact .inr (.inl rfl)
    · exact .inr (.inr ⟨_, rfl⟩)
  | div | mod =>
    refine ⟨_, rfl, .inl ?_⟩
    split_ifs <;> simp
  | _ => exact ⟨_, rfl, .inl (by simp)⟩

/-- An instruction that faults leaves the state past it with the fault raised, and nothing more. -/
theorem eq_raise_of_exec_faulted {i : Instr} {s t : State} {r : FaultRecord} (hs : s.status = .running)
    (h : exec i s = .next t) (ht : t.status = .faulted r) : t = (s.advance i.mnemonic.len).raise r := by
  obtain ⟨t', h', hgoesOn | hhalts | ⟨r', rfl⟩⟩ := exec_goesOnHaltsOrRaises i s <;>
    obtain rfl := Host.Outcome.next.inj (h.symm.trans h')
  case inl => simp [hgoesOn, hs] at ht
  case inr.inl => simp [hhalts] at ht
  case inr.inr =>
    obtain rfl : r' = r := by simpa using ht
    rfl

/-! ## What taking a fault leaves unchanged (R257) -/

/-- Raising a fault where only `pc` has moved changes `pc` and `status` only. -/
theorem OnlyPc.raise {s t : State} (h : OnlyPc s t) (r : FaultRecord) : OnlyStatus s (t.raise r) := by
  obtain ⟨hregs, hflags, hstack, hmem, ⟨-, hbase⟩, hout⟩ := h
  exact ⟨fun q => (t.raise_getReg r q).trans (hregs q), hflags, hstack, hmem, hbase, hout⟩

/-- Moving past bytes and then raising a fault changes `pc` and `status` only. -/
theorem State.advance_raise_onlyStatus (s : State) (k : Nat) (r : FaultRecord) :
    OnlyStatus s ((s.advance k).raise r) :=
  (s.advance_onlyPc k).raise r

/-! ## The bytes and numbers that fault (R251, R253) -/

/-- A first byte that selects no mnemonic is refused. -/
theorem decode_of_ofOpcode_eq_none {w : CodeWindow} (h : Mnemonic.ofOpcode w.b0 = none) :
    decode w = .error (.unknownOpcode w.b0) := by
  simp [decode, h]

/-- `syscall` on an unknown call number raises `UnknownSyscall` past itself. -/
theorem exec_syscall_of_unknown {s : State}
    (h : s.a ∉ [Params.sysNop, Params.sysWait, Params.sysPrintNum, Params.sysPrintChar, Params.sysExit]) :
    exec .syscall s = .next ((s.advance Mnemonic.syscall.len).raise (.unknownSyscall s.a s.pc)) := by
  simp only [List.mem_cons, List.not_mem_nil, or_false, not_or] at h
  simp only [exec, execSyscall, h, if_false]

/-- `int` with an unknown interrupt number raises `UnknownInterrupt` past itself. -/
theorem exec_int_of_unknown (s : State) {v : Byte} (h : v ∉ [Params.intPrint, Params.intWait, Params.intReset]) :
    exec (.int v) s = .next ((s.advance Mnemonic.int.len).raise (.unknownInterrupt v s.pc)) := by
  simp only [List.mem_cons, List.not_mem_nil, or_false, not_or] at h
  simp only [exec, execInt, h, if_false]

/-! ## The obligations -/

/-- Settles O10: the decoder refuses the byte, and the step raises `UnknownOpcode`. -/
theorem unknownOpcodeStopsTheEngine : Obligations.UnknownOpcodeStopsTheEngine := by
  intro s hs hnone
  rw [← s.window_b0] at hnone ⊢
  exact ⟨_, step_of_decode_error hs (decode_of_ofOpcode_eq_none hnone), rfl, s.raiseUnknownOpcode_pc_toNat _,
    s.raiseUnknownOpcode_onlyStatus _⟩

/-- Settles O12: whether an instruction or the decoder faulted, the state is that past the bytes with a fault raised. -/
theorem faultHasNoDataEffect : Obligations.FaultHasNoDataEffect := by
  intro s t r h ht
  refine ⟨?unchanged, step_ne_next_of_not_running (by simp [ht])⟩
  case unchanged =>
    obtain ⟨hs, ⟨i, -, hi⟩ | ⟨k, -, rfl⟩⟩ := step_cases h
    · rw [eq_raise_of_exec_faulted hs hi ht]
      exact s.advance_raise_onlyStatus _ r
    · exact s.raiseUnknownOpcode_onlyStatus k

/-- Settles O50: each of the two raises its fault from the state past it. -/
theorem unknownNumbersStopTheEngine : Obligations.UnknownNumbersStopTheEngine :=
  ⟨fun s h => ⟨_, _, _, exec_syscall_of_unknown h, rfl, s.advance_pcPast .syscall, s.advance_raise_onlyStatus _ _⟩,
    fun s _ h => ⟨_, _, _, exec_int_of_unknown s h, rfl, s.advance_pcPast .int, s.advance_raise_onlyStatus _ _⟩⟩

end Sys2Proof.Machine
end

section
/-! PROOFS of the family `30_encoding`: the decoder and the encoder are inverse, and the tables of opcodes, lengths and
letters. -/

namespace Sys2Proof
open Machine

/-! ## From bytes to an instruction and back -/

/-- The window of a window's bytes is the window. -/
@[simp] theorem CodeWindow.ofBytes_bytes (w : CodeWindow) : CodeWindow.ofBytes w.bytes = w := rfl

/-- The first byte of an encoded instruction's window is its opcode. -/
@[simp] theorem CodeWindow.ofBytes_encode_b0 (i : Instr) (rest : List Byte) :
    (CodeWindow.ofBytes (encode i ++ rest)).b0 = i.mnemonic.opcode := rfl

/-- A window whose first byte is a mnemonic's opcode decodes to that mnemonic's operands. -/
theorem decode_of_b0 {w : CodeWindow} {m : Mnemonic} (h : w.b0 = m.opcode) : decode w = .ok (decodeOperands m w) := by
  simp [decode, h]

/-- Format by format, the operand bytes of a well-formed instruction are read back as its operands, whatever follows. -/
theorem decodeOperands_encode {i : Instr} (hi : i.wf = true) (rest : List Byte) :
    decodeOperands i.mnemonic (CodeWindow.ofBytes (encode i ++ rest)) = i := by
  cases i with
  | inc | push | pop | load | store | movMemReg | movRegImm | movRegMem | movRegMem2 =>
    have hr := decodeReg_encodeReg hi
    simp [decodeOperands, encode, encodeOperands, encodeWord, CodeWindow.ofBytes, Instr.mnemonic, hr]
  | movRegReg d s =>
    obtain ⟨hd, hs⟩ : d.wf = true ∧ s.wf = true := by simpa [Instr.wf] using hi
    simp [decodeOperands, encode, encodeOperands, CodeWindow.ofBytes, Instr.mnemonic, decodeReg_encodeReg hd,
      decodeReg_encodeReg hs]
  | _ => simp [decodeOperands, encode, encodeOperands, encodeWord, CodeWindow.ofBytes, Instr.mnemonic]

/-- What the decoder reads as operands is well-formed. -/
theorem decodeOperands_wf (m : Mnemonic) (w : CodeWindow) : (decodeOperands m w).wf = true := by
  cases m <;> simp [decodeOperands, Instr.wf]

/-- Format by format, the operands read from a window are encoded as the window's bytes. -/
theorem encode_decodeOperands {m : Mnemonic} {w : CodeWindow} (h : m.opcode = w.b0) :
    encode (decodeOperands m w) = w.bytes.take m.len := by
  rw [encode, mnemonic_decodeOperands, h]
  cases m <;> simp [decodeOperands, encodeOperands, encodeWord, CodeWindow.bytes, Mnemonic.len]

/-- An instruction has as many bytes as its mnemonic's length says. -/
@[simp] theorem length_encode (i : Instr) : (encode i).length = i.mnemonic.len := by
  cases i <;> rfl

/-! ## The opcode map and the letters -/

/-- Each byte below 0x29 is an opcode. -/
theorem isSome_ofOpcode_of_lt : ∀ n < 0x29, (Mnemonic.ofOpcode (BitVec.ofNat 8 n)).isSome = true := by decide

/-- Each opcode is a byte below 0x29. -/
theorem opcode_toNat_lt (m : Mnemonic) : m.opcode.toNat < 0x29 := by
  cases m <;> decide

/-- The bytes that select no mnemonic are those from 0x29 up (R98). -/
theorem ofOpcode_eq_none_iff (k : Byte) : Mnemonic.ofOpcode k = none ↔ 0x29 ≤ k.toNat := by
  constructor
  · intro h
    by_contra hlt
    simpa [h] using isSome_ofOpcode_of_lt k.toNat (by omega)
  · intro h
    cases hk : Mnemonic.ofOpcode k with
    | none => rfl
    | some m =>
      have hlt := opcode_toNat_lt m
      rw [Mnemonic.opcode_of_ofOpcode hk] at hlt
      omega

/-- The letter bytes are 0x61, 0x62 and 0x63 (R95). -/
theorem decodeReg_eq (k : Byte) : decodeReg k =
    if k = 0x61 then .reg .a else if k = 0x62 then .reg .b else if k = 0x63 then .reg .c else .bad k := by
  cases hk : Params.regOfCode k with
  | some r =>
    obtain rfl := Params.regCode_of_regOfCode hk
    cases r <;> rfl
  | none =>
    have hne (r : Reg) : k ≠ Params.regCode r := by
      rintro rfl
      simp at hk
    rw [if_neg (show k ≠ 0x61 from hne .a), if_neg (show k ≠ 0x62 from hne .b), if_neg (show k ≠ 0x63 from hne .c)]
    simp [decodeReg, hk]

/-! ## The obligations -/

/-- Settles O1: the opcode selects the mnemonic, and the operands are read back format by format. -/
theorem decodeOfEncodeIsTheInstruction : Obligations.DecodeOfEncodeIsTheInstruction := by
  intro i rest hi
  rw [decode_of_b0 (CodeWindow.ofBytes_encode_b0 i rest), decodeOperands_encode hi]

/-- Settles O2: what decodes is the operands of the selected mnemonic, read format by format. -/
theorem decodedBytesAreTheEncoding : Obligations.DecodedBytesAreTheEncoding := by
  intro w i h
  obtain ⟨m, hm, rfl⟩ := decode_eq_ok h
  rw [mnemonic_decodeOperands]
  exact ⟨decodeOperands_wf m w, encode_decodeOperands (Mnemonic.opcode_of_ofOpcode hm)⟩

/-- Settles O3: the decoder refuses exactly where the first byte selects no mnemonic. -/
theorem illegalOpcodeBytesAreRefused : Obligations.IllegalOpcodeBytesAreRefused := by
  intro w
  rw [← ofOpcode_eq_none_iff]
  exact ⟨fun h => (decode_eq_error h).1, decode_of_ofOpcode_eq_none⟩

/-- Settles O4: the instruction's bytes are its encoding, which decodes to it whatever follows; its first byte selects
the mnemonic. -/
theorem decodingReadsTheInstructionsBytesOnly : Obligations.DecodingReadsTheInstructionsBytesOnly := by
  intro w w' i h
  obtain ⟨hwf, hbytes⟩ := decodedBytesAreTheEncoding w i h
  refine ⟨fun htake => ?sameBytes, fun hb0 => ?sameFirstByte⟩
  case sameBytes =>
    have hw' : encode i ++ w'.bytes.drop i.mnemonic.len = w'.bytes := by
      rw [hbytes, htake, List.take_append_drop]
    simpa [hw'] using decodeOfEncodeIsTheInstruction i (w'.bytes.drop i.mnemonic.len) hwf
  case sameFirstByte =>
    have hopcode : w'.b0 = i.mnemonic.opcode := by rw [opcode_of_decode_eq_ok h, hb0]
    exact ⟨_, decode_of_b0 hopcode, mnemonic_decodeOperands ..⟩

/-- Settles O5: an opcode selects its mnemonic. -/
theorem opcodeMapIsInjective : Obligations.OpcodeMapIsInjective := by
  intro m m' h
  have hsome := congrArg Mnemonic.ofOpcode h
  simpa using hsome

/-- Settles O8: the table of opcodes row by row, the letters, and the words. -/
theorem wordsOfTheSpecDecode : Obligations.WordsOfTheSpecDecode := by
  refine ⟨?opcodes, decodeReg_eq, rfl, rfl, rfl, rfl, rfl, rfl, rfl, rfl, rfl, rfl, rfl⟩
  case opcodes =>
    intro p hp
    have hopcode : p.2.opcode = p.1 := by
      revert p
      decide
    exact ⟨hopcode, fun w hw => ⟨_, decode_of_b0 (hw.trans hopcode.symm), mnemonic_decodeOperands ..⟩⟩

/-- Settles O52: mnemonic by mnemonic. -/
theorem sizeTableUndercountsMovRegImm : Obligations.SizeTableUndercountsMovRegImm :=
  ⟨fun _ => rfl, by decide, by decide, by decide, by decide, rfl⟩

end Sys2Proof
end

section
/-! PROOFS of the rules about all instructions: what `exec` can do, said once, and the frames that follow from it
(10_state; 20_memory R51; 60_exceptions R250, R261). -/

namespace Sys2Proof.Machine

/-! ## What one instruction can do -/

/-- Where a fault raised by an instruction run from `s` comes from, and what it records (R250; D23, entry 26). -/
def FaultSource (i : Instr) (s : State) (r : FaultRecord) : Prop :=
  (∃ k, (regOperands i).find? (fun o => o matches .bad _) = some (.bad k) ∧ r = .unknownRegister k s.pc) ∨
  (i = .syscall ∧ s.a ∉ [Params.sysNop, Params.sysWait, Params.sysPrintNum, Params.sysPrintChar, Params.sysExit] ∧
    r = .unknownSyscall s.a s.pc) ∨
  ∃ v, i = .int v ∧ v ∉ [Params.intPrint, Params.intWait, Params.intReset] ∧ r = .unknownInterrupt v s.pc

/-- The jumps to an address, `call` left out. -/
def jumpsTo (addr : Addr) : List Instr :=
  [.jmp addr, .jz addr, .jnz addr, .jn addr, .jp addr, .jeq addr, .jgt addr, .jlt addr]

/-- What the instruction `i`, run from `s`, can make of the state `u` past it: one case per state operation, each with
the instructions that use it. -/
inductive Effect (i : Instr) (s u : State) : State → Prop
  | none : Effect i s u u
  | setReg (r : Reg) (v : Word) (h : writesReg i r) : Effect i s u (u.setReg r v)
  | compareFlags (h : i = .cmp) : Effect i s u (u.compareFlags Params.numerics s.b s.c)
  | setMem (m : Memory) (h : isStore i) (hwf : u.mem.wf = true → m.wf = true) : Effect i s u (u.setMem m)
  | jump (addr : Addr) (h : i ∈ jumpsTo addr) : Effect i s u (u.setPc addr)
  | call (addr : Addr) (v : Word) (h : i = .call addr) : Effect i s u ((u.push v).setPc addr)
  | ret (st : List Word) (v : Word) (h : i = .ret) (hst : u.stack = st ++ [v]) :
      Effect i s u ((u.setStack st).setPc v)
  | push (r : Reg) (v : Word) (h : i = .push (.reg r)) : Effect i s u (u.push v)
  | pop (r : Reg) (st : List Word) (v : Word) (h : i = .pop (.reg r)) (hst : u.stack = st ++ [v]) :
      Effect i s u ((u.setStack st).setReg r v)
  | emit (e : OutEvent) (h : isOutput i) : Effect i s u (u.emit e)
  | delay (k : Nat) : Effect i s u (u.delay k)
  | halt (h : i = .halt ∨ (i = .syscall ∧ s.a = Params.sysExit)) : Effect i s u u.halt
  | reset (h : i = .int Params.intReset) : Effect i s u u.restore.halt
  | raise (r : FaultRecord) (h : FaultSource i s r) : Effect i s u (u.raise r)

section
variable {i : Instr} {s u : State}

/-- A register operand adds no other effect than raising `UnknownRegister`. -/
theorem Effect.of_withReg {o : RegOperand} {k : Reg → State}
    (hbad : ∀ b, o = .bad b → (regOperands i).find? (fun o => o matches .bad _) = some (.bad b))
    (hreg : ∀ r, o = .reg r → Effect i s u (k r)) : Effect i s u (withReg o s.pc u k) := by
  obtain ⟨r, hr, h⟩ | ⟨b, hb, h⟩ := withReg_cases o s.pc u k
  · exact h ▸ hreg r hr
  · exact h ▸ .raise _ (.inl ⟨b, hbad b hb, rfl⟩)

theorem Effect.loadWord {r : Reg} {size : Nat} {addr : Addr} (h : writesReg i r) :
    Effect i s u (u.loadWord size r addr) := by
  obtain ⟨-, heq⟩ | ⟨-, heq⟩ := u.loadWord_cases size r addr
  · exact heq ▸ .setReg _ _ h
  · rw [heq]; exact .none

theorem Effect.loadByte {r : Reg} {size : Nat} {addr : Addr} (h : writesReg i r) :
    Effect i s u (u.loadByte size r addr) := by
  obtain ⟨-, heq⟩ | ⟨-, heq⟩ := u.loadByte_cases size r addr
  · exact heq ▸ .setReg _ _ h
  · rw [heq]; exact .none

theorem Effect.storeWord {addr : Addr} {v : Word} (h : isStore i) :
    Effect i s u (u.storeWord Config.memSize addr v) := by
  obtain ⟨hin, heq⟩ | ⟨-, heq⟩ := u.storeWord_cases Config.memSize addr v
  · exact heq ▸ .setMem _ h fun hm => Memory.wf_writeWord hm v hin
  · rw [heq]; exact .none

theorem Effect.storeByte {addr : Addr} {v : Byte} (h : isStore i) :
    Effect i s u (u.storeByte Config.memSize addr v) := by
  obtain ⟨hin, heq⟩ | ⟨-, heq⟩ := u.storeByte_cases Config.memSize addr v
  · exact heq ▸ .setMem _ h fun hm => Memory.wf_write hm v hin
  · rw [heq]; exact .none

theorem Effect.jumpIf {addr : Addr} (h : i ∈ jumpsTo addr) (taken : Bool) :
    Effect i s u (u.jumpIf taken addr) := by
  cases taken
  · exact .none
  · exact .jump addr h

end

/-- Every instruction completes with one of the effects on the state past it. -/
theorem exec_effect (i : Instr) (s : State) : ∃ t, exec i s = .next t ∧ Effect i s (s.advance i.mnemonic.len) t := by
  cases i with
  | nop => exact ⟨_, rfl, .none⟩
  | halt => exact ⟨_, rfl, .halt (.inl rfl)⟩
  | add | sub | mul | lda | ldb | ldc => exact ⟨_, rfl, .setReg _ _ rfl⟩
  | div | mod =>
    refine ⟨_, rfl, ?_⟩
    split_ifs
    · exact .none
    · exact .setReg _ _ rfl
  | cmp => exact ⟨_, rfl, .compareFlags rfl⟩
  | inc | movRegImm => exact ⟨_, rfl, .of_withReg (by rintro _ rfl; rfl) fun _ hr => .setReg _ _ hr⟩
  | movRegReg d r =>
    refine ⟨_, rfl, .of_withReg (by rintro _ rfl; rfl) fun q hq => ?_⟩
    exact .of_withReg (by rintro _ rfl; rw [hq]; rfl) fun _ _ => .setReg _ _ hq
  | load | movRegMem | movRegMem2 =>
    exact ⟨_, rfl, .of_withReg (by rintro _ rfl; rfl) fun _ hr => .loadWord hr⟩
  | loadA => exact ⟨_, rfl, .loadWord rfl⟩
  | load8A => exact ⟨_, rfl, .loadByte rfl⟩
  | store | movMemReg => exact ⟨_, rfl, .of_withReg (by rintro _ rfl; rfl) fun _ _ => .storeWord trivial⟩
  | storeA | movMemImm => exact ⟨_, rfl, .storeWord trivial⟩
  | store8A | mov8MemImm => exact ⟨_, rfl, .storeByte trivial⟩
  | jmp addr => exact ⟨_, rfl, .jump addr (by simp [jumpsTo])⟩
  | jz | jnz | jn | jp | jeq | jgt | jlt => exact ⟨_, rfl, .jumpIf (by simp [jumpsTo]) _⟩
  | call addr => exact ⟨_, rfl, .call addr _ rfl⟩
  | ret =>
    refine ⟨_, rfl, ?_⟩
    obtain ⟨st, v, hst, heq⟩ | ⟨-, heq⟩ := (s.advance Mnemonic.ret.len).popThen_cases fun u v => u.setPc v
    · exact heq ▸ .ret st v rfl hst
    · rw [heq]; exact .none
  | push => exact ⟨_, rfl, .of_withReg (by rintro _ rfl; rfl) fun r hr => .push r _ (hr ▸ rfl)⟩
  | pop =>
    refine ⟨_, rfl, .of_withReg (by rintro _ rfl; rfl) fun r hr => ?_⟩
    obtain ⟨st, v, hst, heq⟩ | ⟨-, heq⟩ := (s.advance Mnemonic.pop.len).popThen_cases fun u v => u.setReg r v
    · exact heq ▸ .pop r st v (hr ▸ rfl) hst
    · rw [heq]; exact .none
  | wait v => exact ⟨_, rfl, .delay _⟩
  | int v =>
    refine ⟨_, rfl, ?_⟩
    split_ifs with hprint hwait hreset
    · exact .emit _ trivial
    · exact .delay _
    · exact .reset (hreset ▸ rfl)
    · exact .raise _ (.inr (.inr ⟨v, rfl, by simp [hprint, hwait, hreset], rfl⟩))
  | syscall =>
    refine ⟨_, rfl, ?_⟩
    split_ifs with hnop hwait hnum hchar hexit
    · exact .none
    · exact .delay _
    · exact .emit _ trivial
    · exact .emit _ trivial
    · exact .halt (.inr ⟨rfl, hexit⟩)
    · exact .raise _ (.inr (.inl ⟨rfl, by simp [hnop, hwait, hnum, hchar, hexit], rfl⟩))
  | printa => exact ⟨_, rfl, .emit _ trivial⟩

/-- What an instruction that answers a next state has done. -/
theorem effect_of_exec {i : Instr} {s t : State} (h : exec i s = .next t) : Effect i s (s.advance i.mnemonic.len) t := by
  obtain ⟨t', h', heffect⟩ := exec_effect i s
  obtain rfl := Host.Outcome.next.inj (h.symm.trans h')
  exact heffect

/-! ## What each effect leaves unchanged -/

section
variable {i : Instr} {s u t : State} (h : Effect i s u t)
include h

/-- No effect writes the latched base. -/
theorem Effect.instrBase_eq : t.instrBase = u.instrBase := by
  cases h <;> simp [State.compareFlags]

/-- `pc` stays past the instruction unless it is a listed writer of `pc`. -/
theorem Effect.pc_eq (hi : ¬writesPc i) : t.pc = u.pc := by
  cases h with
  | jump addr hj =>
    have hmem : i ∈ jumpsTo addr ++ [.call addr] := List.mem_append_left _ hj
    exact absurd (.inl ⟨addr, hmem⟩) hi
  | call addr _ hc => exact absurd (.inl ⟨addr, by simp [hc]⟩) hi
  | ret _ _ hr => exact absurd (.inr (.inl hr)) hi
  | reset hr => exact absurd (.inr (.inr hr)) hi
  | _ => simp [State.compareFlags]

/-- Flags are written by `cmp` and the resetting `int` only. -/
theorem Effect.sameFlags (hi : ¬writesFlags i) : SameFlags u t := by
  cases h with
  | compareFlags hc => exact absurd (.inl hc) hi
  | reset hr => exact absurd (.inr hr) hi
  | _ => simp [SameFlags]

/-- `Z` and `N` are not both set after an effect if they were not before: `cmp` sets at most one, a reset none. -/
theorem Effect.not_both_flags (hu : ¬(u.z = true ∧ u.n = true)) : ¬(t.z = true ∧ t.n = true) := by
  cases h with
  | compareFlags _ =>
    simp only [State.compareFlags, State.setFlags_z, State.setFlags_n, lessThan_default, decide_eq_true_eq]
    rintro ⟨heq, hlt⟩
    simp [heq, BitVec.ult] at hlt
  | reset _ => simp
  | _ => simpa using hu

/-- Memory is written by stores only. -/
theorem Effect.mem_eq (hi : ¬isStore i) : t.mem = u.mem := by
  cases h with
  | setMem _ hs => exact absurd hs hi
  | _ => simp [State.compareFlags]

/-- Every effect keeps memory canonical. -/
theorem Effect.wf_mem (hu : u.mem.wf = true) : t.mem.wf = true := by
  cases h with
  | setMem _ _ hwf => exact hwf hu
  | _ => simpa [State.compareFlags] using hu

/-- The stack is changed by `call`, `ret`, `push`, `pop` and the resetting `int` only. -/
theorem Effect.stack_eq (hi : ¬usesStack i) : t.stack = u.stack := by
  cases h with
  | call addr _ hc => exact absurd (.inl ⟨addr, hc⟩) hi
  | ret _ _ hr => exact absurd (.inr (.inl hr)) hi
  | push r _ hp => exact absurd (.inr (.inr (.inl ⟨_, hp⟩))) hi
  | pop r _ _ hp => exact absurd (.inr (.inr (.inr (.inl ⟨_, hp⟩)))) hi
  | reset hr => exact absurd (.inr (.inr (.inr (.inr hr)))) hi
  | _ => simp [State.compareFlags]

/-- But for the resetting `int`, the stack stays, gains one entry at its top, or loses it. -/
theorem Effect.stack_top (hi : i ≠ .int Params.intReset) :
    t.stack = u.stack ∨ (∃ v, t.stack = u.stack ++ [v]) ∨ ∃ v, u.stack = t.stack ++ [v] := by
  cases h with
  | call _ v | push _ v => exact .inr (.inl ⟨v, rfl⟩)
  | ret _ v _ hst => exact .inr (.inr ⟨v, hst⟩)
  | pop _ _ v _ hst => exact .inr (.inr ⟨v, by simpa using hst⟩)
  | reset hr => exact absurd hr hi
  | _ => simp [State.compareFlags]

/-- The trace grows by at most one event, and by none but for the output instructions. -/
theorem Effect.out_eq : ∃ l, t.out = u.out ++ l ∧ l.length ≤ 1 ∧ (¬isOutput i → l = []) := by
  cases h with
  | emit e ho => exact ⟨[e], rfl, by simp, fun hi => absurd ho hi⟩
  | _ => exact ⟨[], by simp [State.compareFlags], by simp, fun _ => rfl⟩

/-- A register that the instruction is not listed to write is unchanged. -/
theorem Effect.getReg_eq {q : Reg} (hi : ¬writesReg i q) : t.getReg q = u.getReg q := by
  cases h with
  | setReg r _ hr =>
    have hne : q ≠ r := by rintro rfl; exact hi hr
    simp [hne]
  | pop r _ _ hp =>
    have hne : q ≠ r := by rintro rfl; exact hi (hp ▸ rfl)
    simp [hne]
  | reset hr => exact absurd (hr ▸ rfl) hi
  | _ => simp [State.compareFlags]

/-- What stops a running engine normally. -/
theorem Effect.normal_stop (hu : u.status = .running) (ht : t.status = .halted) :
    i = .halt ∨ (i = .syscall ∧ s.a = Params.sysExit) ∨ i = .int Params.intReset := by
  cases h with
  | halt hi => exact hi.imp_right .inl
  | reset hi => exact .inr (.inr hi)
  | _ => simp [hu] at ht

/-- What stops a running engine on a fault. -/
theorem Effect.faultSource {r : FaultRecord} (hu : u.status = .running) (ht : t.status = .faulted r) :
    FaultSource i s r ∧ t.pc = u.pc := by
  cases h with
  | raise r' hr =>
    obtain rfl : r' = r := by simpa using ht
    exact ⟨hr, rfl⟩
  | _ => simp [hu] at ht

end

/-- Where `pc` is still past the instruction, in the terms of the statements. -/
theorem pcPast_of_pc_eq {m : Mnemonic} {s t : State} (h : t.pc = (s.advance m.len).pc) : PcPast m s t :=
  (congrArg BitVec.toNat h).trans (s.advance_pcPast m)

/-- An instruction that is no listed writer of `pc` leaves it past itself. -/
theorem pcPast_of_exec {i : Instr} {s t : State} (h : exec i s = .next t) (hi : ¬writesPc i) :
    PcPast i.mnemonic s t :=
  pcPast_of_pc_eq ((effect_of_exec h).pc_eq hi)

/-- What a step that answers a next state has done: one effect on the state past the instruction, or `UnknownOpcode`. -/
theorem step_effect {s t : State} (h : step s = .next t) :
    (∃ i k, Effect i s (s.advance k) t) ∨ ∃ k, t = s.raiseUnknownOpcode k := by
  obtain ⟨-, ⟨i, -, hi⟩ | ⟨k, -, hk⟩⟩ := step_cases h
  · exact .inl ⟨i, _, effect_of_exec hi⟩
  · exact .inr ⟨k, hk⟩

/-! ## Where the listed writers of `pc` leave it -/

/-- The conditional jumps to an address. -/
def conditionalJumpsTo (addr : Addr) : List Instr :=
  [.jz addr, .jnz addr, .jn addr, .jp addr, .jeq addr, .jgt addr, .jlt addr]

/-- A conditional jump moves past itself and then jumps or does not. -/
theorem exec_conditionalJump {i : Instr} {addr : Addr} (hi : i ∈ conditionalJumpsTo addr) (s : State) :
    ∃ taken, exec i s = .next ((s.advance i.mnemonic.len).jumpIf taken addr) := by
  simp only [conditionalJumpsTo, List.mem_cons, List.not_mem_nil, or_false] at hi
  rcases hi with rfl | rfl | rfl | rfl | rfl | rfl | rfl <;> exact ⟨_, rfl⟩

/-- A conditional jump leaves `pc` past itself or at its operand. -/
theorem pc_of_conditionalJump {i : Instr} {addr : Addr} (hi : i ∈ conditionalJumpsTo addr) {s t : State}
    (h : exec i s = .next t) : PcPast i.mnemonic s t ∨ t.pc = addr := by
  obtain ⟨taken, htaken⟩ := exec_conditionalJump hi s
  obtain rfl := Host.Outcome.next.inj (htaken.symm.trans h)
  cases taken
  · exact .inl (s.advance_pcPast _)
  · exact .inr rfl

/-- `ret` with `v` on top pops it into `pc`. -/
theorem exec_ret_of_append {s : State} {st : List Word} {v : Word} (h : s.stack = st ++ [v]) :
    exec .ret s = .next (((s.advance Mnemonic.ret.len).setStack st).setPc v) := by
  rw [exec, execRet, (s.advance Mnemonic.ret.len).popThen_append st v h]

/-- `ret` on the empty stack goes past itself. -/
theorem exec_ret_of_empty {s : State} (h : s.stack = []) : exec .ret s = .next (s.advance Mnemonic.ret.len) := by
  rw [exec, execRet, (s.advance Mnemonic.ret.len).popThen_empty h]

/-- `syscall` with the exit number halts past itself. -/
theorem exec_syscall_of_exit {s : State} (h : s.a = Params.sysExit) :
    exec .syscall s = .next (s.advance Mnemonic.syscall.len).halt := by
  simp only [exec, execSyscall, h]
  rfl

/-! ## The obligations -/

/-- Settles O11: an instruction completes, and an illegal byte raises `UnknownOpcode`. -/
theorem runningEngineAlwaysSteps : Obligations.RunningEngineAlwaysSteps := by
  intro s hs
  cases h : decode s.window with
  | ok i =>
    obtain ⟨t, ht, -⟩ := exec_effect i s
    exact ⟨t, (step_of_decode_ok hs h).trans ht⟩
  | error e =>
    obtain ⟨-, rfl⟩ := decode_eq_error h
    exact ⟨_, step_of_decode_error hs h⟩

/-- Settles O13: each effect keeps memory canonical and the flags apart; `UnknownOpcode` touches neither. -/
theorem invariantIsKeptByEveryStep : Obligations.InvariantIsKeptByEveryStep := by
  rintro s t ⟨hmem, hflags⟩ h
  obtain ⟨i, k, heffect⟩ | ⟨k, rfl⟩ := step_effect h
  · exact ⟨heffect.wf_mem hmem, heffect.not_both_flags hflags⟩
  · exact ⟨hmem, hflags⟩

/-- Settles O18: the instructions that do not write `pc`, then the writers of `pc` one by one. -/
theorem programCounterMovesAsListed : Obligations.ProgramCounterMovesAsListed := by
  intro i s t h
  refine ⟨pcPast_of_exec h, ?jumps, fun addr hi => pc_of_conditionalJump hi h, ?retEmpty, ?retPops, ?resets⟩
  case jumps =>
    rintro addr (rfl | rfl) <;> (cases h; rfl)
  case retEmpty =>
    rintro rfl hst
    obtain rfl := Host.Outcome.next.inj ((exec_ret_of_empty hst).symm.trans h)
    exact s.advance_pcPast .ret
  case retPops =>
    rintro st v rfl hst
    obtain rfl := Host.Outcome.next.inj ((exec_ret_of_append hst).symm.trans h)
    rfl
  case resets =>
    rintro rfl
    cases h
    rfl

/-- Settles O19: neither an effect nor `UnknownOpcode` writes the base. -/
theorem instrBaseIsNeverWritten : Obligations.InstrBaseIsNeverWritten := by
  intro s t h
  obtain ⟨i, k, heffect⟩ | ⟨k, rfl⟩ := step_effect h
  · exact heffect.instrBase_eq
  · rfl

/-- Settles O20, from the effect of the instruction. -/
theorem flagsAreWrittenByCmpAndResetOnly : Obligations.FlagsAreWrittenByCmpAndResetOnly :=
  fun _ _ _ h hi => (effect_of_exec h).sameFlags hi

/-- Settles O21, from the effect of the instruction. -/
theorem memoryIsWrittenByStoresOnly : Obligations.MemoryIsWrittenByStoresOnly :=
  fun _ _ _ h hi x => congrArg (Memory.read · x) ((effect_of_exec h).mem_eq hi)

/-- Settles O22, from the effect of the instruction. -/
theorem stackIsUsedAsListed : Obligations.StackIsUsedAsListed :=
  fun _ _ _ h => ⟨(effect_of_exec h).stack_eq, (effect_of_exec h).stack_top⟩

/-- Settles O23, from the effect of the instruction. -/
theorem outputTraceOnlyGrows : Obligations.OutputTraceOnlyGrows :=
  fun _ _ _ h => (effect_of_exec h).out_eq

/-- Settles O24, from the effect of the instruction. -/
theorem registersAreWrittenAsListed : Obligations.RegistersAreWrittenAsListed :=
  fun _ s _ q h hi => ((effect_of_exec h).getReg_eq hi).trans (s.advance_getReg _ q)

/-- Settles O25: each of the three ends in a halted state, and no other effect does. -/
theorem normalStopsAreThree : Obligations.NormalStopsAreThree := by
  refine ⟨fun i s hi => ?stops, fun i s t h hs ht => (effect_of_exec h).normal_stop hs ht⟩
  case stops =>
    have hhalted : ∃ t, exec i s = .next t ∧ t.status = .halted := by
      rcases hi with rfl | ⟨rfl, ha⟩ | rfl
      · exact ⟨_, rfl, rfl⟩
      · exact ⟨_, exec_syscall_of_exit ha, rfl⟩
      · exact ⟨_, rfl, rfl⟩
    obtain ⟨t, ht, hstatus⟩ := hhalted
    exact ⟨t, ht, hstatus, step_ne_next_of_not_running (by simp [hstatus])⟩

/-- Settles O26: the effect that faults names its source, and leaves `pc` past the instruction. -/
theorem faultsComeFromThreeSources : Obligations.FaultsComeFromThreeSources := by
  intro i s t r h hs ht
  obtain ⟨hsource, hpc⟩ := (effect_of_exec h).faultSource hs ht
  exact ⟨pcPast_of_pc_eq hpc, hsource⟩

end Sys2Proof.Machine
end

section
/-! PROOFS of the instructions' own rules: arithmetic, moves, loads and stores, control transfer, the stack and the
system instructions (40_arithmetic to 45_system), and the bad letters (60_exceptions R252). -/

namespace Sys2Proof.Machine

/-! ## Frames of one operation past the instruction -/

section
variable (s : State) (k : Nat)

theorem State.advance_setReg_onlyReg (r : Reg) (v : Word) : OnlyReg r s ((s.advance k).setReg r v) :=
  ⟨fun q hq => by simp [hq], by simp [SameFlags], by simp, fun _ => by simp, by simp [SameControl],
    by simp [SameOutputs]⟩

theorem State.advance_onlyReg (r : Reg) : OnlyReg r s (s.advance k) :=
  ⟨fun q _ => s.advance_getReg k q, ⟨rfl, rfl⟩, rfl, fun _ => rfl, ⟨rfl, rfl⟩, rfl, rfl⟩

theorem State.advance_setPc_onlyPc (p : Addr) : OnlyPc s ((s.advance k).setPc p) :=
  ⟨fun q => by simp, ⟨rfl, rfl⟩, rfl, fun _ => rfl, ⟨rfl, rfl⟩, rfl, rfl⟩

theorem State.advance_setFlags_onlyFlags (z n : Bool) : OnlyFlags s ((s.advance k).setFlags z n) :=
  ⟨fun q => by simp, rfl, fun _ => rfl, ⟨rfl, rfl⟩, rfl, rfl⟩

theorem State.advance_setStack_onlyStack (st : List Word) : OnlyStack s ((s.advance k).setStack st) :=
  ⟨fun q => by simp, ⟨rfl, rfl⟩, fun _ => rfl, ⟨rfl, rfl⟩, rfl, rfl⟩

theorem State.advance_setStack_setPc_onlyStack (st : List Word) (p : Addr) :
    OnlyStack s (((s.advance k).setStack st).setPc p) :=
  ⟨fun q => by simp, ⟨rfl, rfl⟩, fun _ => rfl, ⟨rfl, rfl⟩, rfl, rfl⟩

theorem State.advance_emit_onlyOutputs (e : OutEvent) : OnlyOutputs s ((s.advance k).emit e) :=
  ⟨fun q => by simp, ⟨rfl, rfl⟩, rfl, fun _ => rfl, rfl, rfl⟩

theorem State.advance_delay_onlyOutputs (d : Nat) : OnlyOutputs s ((s.advance k).delay d) :=
  ⟨fun q => by simp, ⟨rfl, rfl⟩, rfl, fun _ => rfl, rfl, rfl⟩

theorem State.advance_halt_onlyStatus : OnlyStatus s (s.advance k).halt :=
  ⟨fun q => by simp, ⟨rfl, rfl⟩, rfl, fun _ => rfl, rfl, rfl, rfl⟩

theorem State.advance_setReg_pcPast (m : Mnemonic) (r : Reg) (v : Word) :
    PcPast m s ((s.advance m.len).setReg r v) :=
  pcPast_of_pc_eq (State.setReg_pc ..)

end

/-! ## Arithmetic and comparison -/

/-- What `div` and `mod` share: A is written unless B is 0. -/
theorem writeA_unless_b_zero (s : State) (m : Mnemonic) (v : Word) :
    let t := if s.b = 0 then s.advance m.len else (s.advance m.len).setReg .a v
    (s.b ≠ 0 → t.a = v) ∧ (s.b = 0 → t.a = s.a) ∧ PcPast m s t ∧ OnlyReg .a s t := by
  intro t
  by_cases hb : s.b = 0
  · have ht : t = s.advance m.len := if_pos hb
    rw [ht]
    exact ⟨fun h => absurd hb h, fun _ => rfl, s.advance_pcPast m, s.advance_onlyReg _ .a⟩
  · have ht : t = (s.advance m.len).setReg .a v := if_neg hb
    rw [ht]
    exact ⟨fun _ => rfl, fun h => absurd h hb, s.advance_setReg_pcPast m .a v, s.advance_setReg_onlyReg _ .a v⟩

/-- Settles O27: each is one register write past the instruction, with the operation modulo 2^16. -/
theorem addSubMulWrapIntoA : Obligations.AddSubMulWrapIntoA := by
  intro s
  refine ⟨⟨_, rfl, ?add, s.advance_setReg_pcPast .add _ _, s.advance_setReg_onlyReg _ _ _⟩,
    ⟨_, rfl, ?sub, s.advance_setReg_pcPast .sub _ _, s.advance_setReg_onlyReg _ _ _⟩,
    ⟨_, rfl, ?mul, s.advance_setReg_pcPast .mul _ _, s.advance_setReg_onlyReg _ _ _⟩⟩
  case add => exact BitVec.toNat_add ..
  case mul => exact BitVec.toNat_mul ..
  case sub =>
    have hsub := BitVec.toNat_sub s.a s.b
    have hb := s.b.isLt
    simp only [State.setReg_a, if_true]
    omega

/-- Settles O28: the same write of A with the quotient and with the remainder. -/
theorem divModWriteAUnlessBIsZero : Obligations.DivModWriteAUnlessBIsZero := by
  intro s
  obtain ⟨hdiv, hdiv0, hdivFrame⟩ := writeA_unless_b_zero s .div (s.a / s.b)
  obtain ⟨hmod, hmod0, hmodFrame⟩ := writeA_unless_b_zero s .mod (s.a % s.b)
  exact ⟨⟨_, rfl, fun hb => (congrArg BitVec.toNat (hdiv hb)).trans BitVec.toNat_udiv, hdiv0, hdivFrame⟩,
    ⟨_, rfl, fun hb => (congrArg BitVec.toNat (hmod hb)).trans BitVec.toNat_umod, hmod0, hmodFrame⟩⟩

/-- Settles O29: one register write past the instruction. -/
theorem incAddsOneModulo : Obligations.IncAddsOneModulo := fun s r =>
  ⟨_, rfl, by simp [BitVec.toNat_add], s.advance_setReg_pcPast .inc r _, s.advance_setReg_onlyReg _ r _⟩

/-- Settles O30: both flags are decided comparisons. -/
theorem cmpSetsBothFlags : Obligations.CmpSetsBothFlags := fun s =>
  ⟨_, rfl, decide_eq_true_iff, decide_eq_true_iff, s.advance_pcPast .cmp, s.advance_setFlags_onlyFlags _ _ _⟩

/-! ## Immediate loads and register moves -/

/-- Settles O31: each is one register write past the instruction. -/
theorem immediateLoadsWriteTheirRegister : Obligations.ImmediateLoadsWriteTheirRegister := fun s _ =>
  ⟨⟨_, rfl, rfl, s.advance_setReg_pcPast .lda _ _, s.advance_setReg_onlyReg _ _ _⟩,
    ⟨_, rfl, rfl, s.advance_setReg_pcPast .ldb _ _, s.advance_setReg_onlyReg _ _ _⟩,
    ⟨_, rfl, rfl, s.advance_setReg_pcPast .ldc _ _, s.advance_setReg_onlyReg _ _ _⟩⟩

/-- Settles O32: each is one register write past the instruction. -/
theorem registerMovesWriteTheFirstLetter : Obligations.RegisterMovesWriteTheFirstLetter := fun s d _ _ _ =>
  ⟨⟨_, rfl, by simp, s.advance_setReg_pcPast .movRegReg d _, s.advance_setReg_onlyReg _ d _⟩,
    ⟨_, rfl, by simp, s.advance_setReg_pcPast .movRegImm d _, s.advance_setReg_onlyReg _ d _⟩⟩

/-! ## Loads and stores -/

/-- The 16-bit loads into a register, `load_a` left out. -/
def wordLoads (addr : Addr) (r : Reg) : List Instr :=
  [.load addr (.reg r), .movRegMem (.reg r) addr, .movRegMem2 (.reg r) addr]

/-- The 16-bit stores, each with the value it stores. -/
def wordStores (s : State) (addr : Addr) (v : Word) (r : Reg) : List (Instr × Word) :=
  [(.store addr (.reg r), s.getReg r), (.movMemReg addr (.reg r), s.getReg r), (.storeA addr, s.a), (.movMemImm addr v, v)]

/-- The 16-bit loads are one bound-checked access past the instruction. -/
theorem exec_wordLoad {i : Instr} {addr : Addr} {r : Reg} (hi : i ∈ wordLoads addr r) (s : State) :
    exec i s = .next ((s.advance i.mnemonic.len).loadWord Config.memSize r addr) := by
  simp only [wordLoads, List.mem_cons, List.not_mem_nil, or_false] at hi
  rcases hi with rfl | rfl | rfl <;> rfl

/-- The 16-bit stores are one bound-checked access past the instruction. -/
theorem exec_wordStore {p : Instr × Word} {s : State} {addr : Addr} {v : Word} {r : Reg}
    (hp : p ∈ wordStores s addr v r) :
    exec p.1 s = .next ((s.advance p.1.mnemonic.len).storeWord Config.memSize addr p.2) := by
  simp only [wordStores, List.mem_cons, List.not_mem_nil, or_false] at hp
  rcases hp with rfl | rfl | rfl | rfl <;> rfl

theorem State.loadWord_of_le {size : Nat} {addr : Addr} (h : addr.toNat + 2 ≤ size) (s : State) (r : Reg) :
    s.loadWord size r addr = s.setReg r (s.mem.readWord addr) := by
  simp [State.loadWord, h]

theorem State.storeWord_of_le {size : Nat} {addr : Addr} (h : addr.toNat + 2 ≤ size) (s : State) (v : Word) :
    s.storeWord size addr v = s.setMem (s.mem.writeWord addr v) := by
  simp [State.storeWord, h]

theorem State.loadWord_of_lt {size : Nat} {addr : Addr} (h : size < addr.toNat + 2) (s : State) (r : Reg) :
    s.loadWord size r addr = s := by
  simp [State.loadWord, h]

theorem State.storeWord_of_lt {size : Nat} {addr : Addr} (h : size < addr.toNat + 2) (s : State) (v : Word) :
    s.storeWord size addr v = s := by
  simp [State.storeWord, h]

/-- A byte load is always in range. -/
theorem State.loadByte_default (s : State) (r : Reg) (addr : Addr) :
    s.loadByte Config.memSize r addr = s.setReg r ((s.mem.read addr.toNat).zeroExtend 16) :=
  if_pos (inRange_byte addr)

/-- A byte store is always in range. -/
theorem State.storeByte_default (s : State) (addr : Addr) (v : Byte) :
    s.storeByte Config.memSize addr v = s.setMem (s.mem.write addr.toNat v) :=
  if_pos (inRange_byte addr)

theorem Memory.readWord_toNat (m : Memory) (addr : Addr) :
    (m.readWord addr).toNat = (m.read addr.toNat).toNat * 256 + (m.read (addr.toNat + 1)).toNat :=
  joinBytes_toNat ..

/-- A 16-bit load in range, past the instruction. -/
theorem State.advance_loadWord_of_le {addr : Addr} (h : addr.toNat + 2 ≤ 65536) (s : State) (m : Mnemonic) (r : Reg) :
    let t := (s.advance m.len).loadWord Config.memSize r addr
    (t.getReg r).toNat = (s.mem.read addr.toNat).toNat * 256 + (s.mem.read (addr.toNat + 1)).toNat ∧
      PcPast m s t ∧ OnlyReg r s t := by
  intro t
  have ht : t = (s.advance m.len).setReg r (s.mem.readWord addr) := State.loadWord_of_le h ..
  rw [ht]
  exact ⟨by simp [Memory.readWord_toNat], s.advance_setReg_pcPast m r _, s.advance_setReg_onlyReg _ r _⟩

/-- A memory write past the instruction, byte by byte as `f` says, that touches only the `k` bytes from `x` on. -/
theorem State.advance_setMem_onlyMem (s : State) (j : Nat) {x k : Nat} {m : Memory}
    (h : ∀ y, ¬(x ≤ y ∧ y < x + k) → m.read y = s.mem.read y) : OnlyMem x k s ((s.advance j).setMem m) :=
  ⟨fun _ => by simp, ⟨rfl, rfl⟩, rfl, h, ⟨rfl, rfl⟩, rfl, rfl⟩

/-- A 16-bit store in range, past the instruction. -/
theorem State.advance_storeWord_of_le {s : State} {addr : Addr} (hm : s.mem.wf = true) (h : addr.toNat + 2 ≤ 65536)
    (m : Mnemonic) (v : Word) :
    let t := (s.advance m.len).storeWord Config.memSize addr v
    (t.mem.read addr.toNat).toNat = v.toNat / 256 ∧ (t.mem.read (addr.toNat + 1)).toNat = v.toNat % 256 ∧
      PcPast m s t ∧ OnlyMem addr.toNat 2 s t := by
  intro t
  have ht : t = (s.advance m.len).setMem (s.mem.writeWord addr v) := State.storeWord_of_le h ..
  rw [ht]
  have hread := Memory.read_writeWord hm v h
  refine ⟨by simp [hread, hi8_toNat], by simp [hread, lo8_toNat], s.advance_pcPast m,
    s.advance_setMem_onlyMem _ fun y hy => ?_⟩
  rw [hread, if_neg (by omega), if_neg (by omega)]

/-- A byte store, past the instruction. -/
theorem State.advance_storeByte {s : State} (hm : s.mem.wf = true) (addr : Addr) (m : Mnemonic) (v : Byte) :
    let t := (s.advance m.len).storeByte Config.memSize addr v
    t.mem.read addr.toNat = v ∧ PcPast m s t ∧ OnlyMem addr.toNat 1 s t := by
  intro t
  have ht : t = (s.advance m.len).setMem (s.mem.write addr.toNat v) := State.storeByte_default ..
  rw [ht]
  have hread := Memory.read_write hm addr.toNat v
  refine ⟨by simp [hread], s.advance_pcPast m, s.advance_setMem_onlyMem _ fun y hy => ?_⟩
  rw [hread, if_neg (by omega)]

/-- Settles O33: the four loads are the same access past the instruction. -/
theorem wordLoadsReadTwoBytes : Obligations.WordLoadsReadTwoBytes := fun s _ r h =>
  ⟨fun i hi => ⟨_, exec_wordLoad hi s, s.advance_loadWord_of_le h i.mnemonic r⟩,
    ⟨_, rfl, s.advance_loadWord_of_le h .loadA .a⟩⟩

/-- Settles O34: the access is always in range, and the byte keeps its value in 16 bits. -/
theorem byteLoadZeroExtends : Obligations.ByteLoadZeroExtends := by
  intro s addr
  refine ⟨_, congrArg Host.Outcome.next (State.loadByte_default ..), ?_, s.advance_setReg_pcPast .load8A _ _,
    s.advance_setReg_onlyReg _ _ _⟩
  have hlt := (s.mem.read addr.toNat).isLt
  rw [State.setReg_a, if_pos rfl]
  exact (BitVec.toNat_setWidth ..).trans (Nat.mod_eq_of_lt (hlt.trans (by decide)))

/-- Settles O35: the four stores are the same access past the instruction. -/
theorem wordStoresWriteTwoBytes : Obligations.WordStoresWriteTwoBytes := fun _ _ _ _ hm h p hp =>
  ⟨_, exec_wordStore hp, State.advance_storeWord_of_le hm h p.1.mnemonic p.2⟩

/-- Settles O36: the two stores are the same access past the instruction. -/
theorem byteStoresWriteOneByte : Obligations.ByteStoresWriteOneByte := by
  intro s addr v hm
  obtain ⟨hbyte, hframe⟩ := State.advance_storeByte hm addr .store8A (lo8 s.a)
  exact ⟨⟨_, rfl, by rw [hbyte, lo8_toNat], hframe⟩, ⟨_, rfl, State.advance_storeByte hm addr .mov8MemImm v⟩⟩

/-- Settles O37: each skipped access leaves the state past the instruction. -/
theorem outOfRangeAccessIsSkipped : Obligations.OutOfRangeAccessIsSkipped := by
  refine ⟨fun s size r addr v b => ⟨?word, ?byte⟩, fun s addr v r h i hi => ?_⟩
  case word => exact fun h => ⟨State.loadWord_of_lt h s r, State.storeWord_of_lt h s v⟩
  case byte =>
    intro h
    simp [State.loadByte, State.storeByte, Nat.not_le.mpr h]
  have hforms : i ∈ wordLoads addr r ∨ i = .loadA addr ∨ ∃ w, (i, w) ∈ wordStores s addr v r := by
    simp only [wordLoads, wordStores, List.mem_cons, List.not_mem_nil, or_false, Prod.mk.injEq, exists_or,
      exists_and_left, exists_eq, and_true] at hi ⊢
    tauto
  have hskip : exec i s = .next (s.advance i.mnemonic.len) := by
    obtain hload | rfl | ⟨w, hstore⟩ := hforms
    · exact (exec_wordLoad hload s).trans (congrArg _ (State.loadWord_of_lt h ..))
    · exact congrArg _ (State.loadWord_of_lt h ..)
    · exact (exec_wordStore hstore).trans (congrArg _ (State.storeWord_of_lt h ..))
  exact ⟨_, hskip, s.advance_pcPast _, s.advance_onlyPc _⟩

end Sys2Proof.Machine
end

section
/-! PROOFS of the rules that combine instructions or fetches with stores, of control transfer, the stack and the system
instructions, and of the bad letters (20_memory section 6; 43_control_transfer to 45_system; 60_exceptions R252, R254). -/

namespace Sys2Proof.Machine

/-! ## Accesses that see an earlier store -/

/-- Settles O38: the bytes the store has put are the bytes the loads read. -/
theorem loadSeesTheEarlierStore : Obligations.LoadSeesTheEarlierStore := by
  intro s t addr r q hm h hstore
  obtain ⟨t', ht', hhi, hlo, -⟩ := wordStoresWriteTwoBytes s addr 0 r hm h (.store addr (.reg r), s.getReg r) (by simp)
  obtain rfl := Host.Outcome.next.inj (hstore.symm.trans ht')
  have hnext : (addr + 1).toNat = addr.toNat + 1 :=
    (BitVec.toNat_add ..).trans (Nat.mod_eq_of_lt h)
  dsimp only at hhi hlo
  refine ⟨?word, ?high, ?low⟩
  case word =>
    obtain ⟨u, hu, hword, -⟩ := (wordLoadsReadTwoBytes t addr q h).1 (.load addr (.reg q)) (by simp)
    exact ⟨u, hu, BitVec.eq_of_toNat_eq (by omega)⟩
  case high =>
    obtain ⟨u, hu, hbyte, -⟩ := byteLoadZeroExtends t addr
    exact ⟨u, hu, hbyte.trans hhi⟩
  case low =>
    obtain ⟨u, hu, hbyte, -⟩ := byteLoadZeroExtends t (addr + 1)
    exact ⟨u, hu, by rw [hbyte, hnext, hlo]⟩

/-- The second byte of the window is the one after `pc`, modulo 2^16. -/
theorem State.window_b1 (s : State) : s.window.b1 = s.mem.read (s.pc + 1).toNat := rfl

/-- Settles O39: the byte stored is the byte the next window holds, and it selects the mnemonic. -/
theorem storeIsSeenByTheNextFetch : Obligations.StoreIsSeenByTheNextFetch := by
  intro s t addr v hm hstore
  obtain ⟨t', ht', hbyte, -, -, -, -, -, ⟨hstatus, -⟩, -⟩ := (byteStoresWriteOneByte s addr v hm).2
  obtain rfl := Host.Outcome.next.inj (hstore.symm.trans ht')
  have hopcode (hpc : addr = t.pc) : t.window.b0 = v := by rw [State.window_b0, ← hpc, hbyte]
  refine ⟨hopcode, fun hpc => by rw [State.window_b1, ← hpc, hbyte], fun m hpc hv hs => ?_⟩
  have hdecode : decode t.window = .ok (decodeOperands m t.window) :=
    decode_of_b0 ((hopcode hpc).trans (Mnemonic.opcode_of_ofOpcode hv).symm)
  exact step_of_decode_ok (hstatus.trans hs) hdecode

/-! ## Control transfer -/

/-- A conditional jump past the instruction: to the target where taken, else nowhere further. -/
theorem State.advance_jumpIf (s : State) (m : Mnemonic) (taken : Bool) (addr : Addr) :
    let t := (s.advance m.len).jumpIf taken addr
    (taken = true → t.pc = addr) ∧ (taken = false → PcPast m s t) ∧ OnlyPc s t := by
  cases taken
  · exact ⟨by simp, fun _ => s.advance_pcPast m, s.advance_onlyPc _⟩
  · exact ⟨fun _ => rfl, by simp, s.advance_setPc_onlyPc _ addr⟩

/-- The jumps on a flag, each with its condition. -/
def flagJumps (s : State) (addr : Addr) : List (Instr × Bool) :=
  [(.jz addr, s.z), (.jnz addr, !s.z), (.jn addr, s.n), (.jp addr, !s.n)]

theorem exec_flagJump {s : State} {addr : Addr} {p : Instr × Bool} (hp : p ∈ flagJumps s addr) :
    exec p.1 s = .next ((s.advance p.1.mnemonic.len).jumpIf p.2 addr) := by
  simp only [flagJumps, List.mem_cons, List.not_mem_nil, or_false] at hp
  rcases hp with rfl | rfl | rfl | rfl <;> rfl

/-- Settles O40: the four are one conditional jump past the instruction. -/
theorem flagJumpsReadTheirFlag : Obligations.FlagJumpsReadTheirFlag := fun s addr p hp =>
  ⟨_, exec_flagJump hp, s.advance_jumpIf p.1.mnemonic p.2 addr⟩

/-- A jump on a decidable condition, past the instruction. -/
theorem State.advance_jumpIf_decide (s : State) (m : Mnemonic) (addr : Addr) (P : Prop) [Decidable P] :
    let t := (s.advance m.len).jumpIf (decide P) addr
    (P → t.pc = addr) ∧ (¬P → PcPast m s t) ∧ OnlyPc s t := by
  simpa using s.advance_jumpIf m (decide P) addr

/-- Settles O41: `jeq`, `jgt` and `jlt` are jumps on a comparison of B and C. -/
theorem directJumpsCompareBWithC : Obligations.DirectJumpsCompareBWithC := by
  intro s addr
  obtain ⟨hgt, hngt, hgtFrame⟩ := s.advance_jumpIf_decide .jgt addr (s.c.toNat < s.b.toNat)
  obtain ⟨hlt, hnlt, hltFrame⟩ := s.advance_jumpIf_decide .jlt addr (s.b.toNat < s.c.toNat)
  exact ⟨⟨_, rfl, rfl, s.advance_setPc_onlyPc _ addr⟩,
    ⟨_, rfl, s.advance_jumpIf_decide .jeq addr (s.b = s.c)⟩,
    ⟨_, rfl, hgt, fun h => hngt (Nat.not_lt.mpr h), hgtFrame⟩,
    ⟨_, rfl, hlt, fun h => hnlt (Nat.not_lt.mpr h), hltFrame⟩⟩

/-- Settles O42: the value pushed is the `pc` past the instruction. -/
theorem callPushesTheReturnAddress : Obligations.CallPushesTheReturnAddress := fun s addr =>
  ⟨_, _, rfl, rfl, rfl, s.advance_pcPast .call, s.advance_setStack_setPc_onlyStack _ _ addr⟩

/-- Settles O43: with a value on top it is popped, on the empty stack only `pc` moves. -/
theorem retPopsIntoPc : Obligations.RetPopsIntoPc := by
  intro s
  rcases List.eq_nil_or_concat' s.stack with hst | ⟨st, v, hst⟩
  · refine ⟨_, exec_ret_of_empty hst, s.advance_setStack_onlyStack _ s.stack, fun st v h => ?_, fun _ => ?_⟩
    · simp [hst] at h
    · exact ⟨hst, s.advance_pcPast .ret⟩
  · refine ⟨_, exec_ret_of_append hst, s.advance_setStack_setPc_onlyStack _ st v, fun st' v' h => ?_, fun h => ?_⟩
    · obtain ⟨hst', hv⟩ := List.append_inj' (hst.symm.trans h) rfl
      exact ⟨by simpa using hv, hst'⟩
    · simp [hst] at h

/-! ## The stack -/

theorem exec_pop_reg (s : State) (r : Reg) : exec (.pop (.reg r)) s =
    .next ((s.advance Mnemonic.pop.len).popThen fun u v => u.setReg r v) := rfl

/-- `pop` with `v` on top pops it into its register. -/
theorem exec_pop_of_append {s : State} {st : List Word} {v : Word} (h : s.stack = st ++ [v]) (r : Reg) :
    exec (.pop (.reg r)) s = .next (((s.advance Mnemonic.pop.len).setStack st).setReg r v) := by
  rw [exec_pop_reg, (s.advance Mnemonic.pop.len).popThen_append st v h]

/-- `pop` on the empty stack only moves past itself. -/
theorem exec_pop_of_empty {s : State} (h : s.stack = []) (r : Reg) :
    exec (.pop (.reg r)) s = .next (s.advance Mnemonic.pop.len) := by
  rw [exec_pop_reg, (s.advance Mnemonic.pop.len).popThen_empty h]

/-- Settles O44: `push`, then `pop` with a value on top and on the empty stack. -/
theorem pushAndPopMoveTheTop : Obligations.PushAndPopMoveTheTop := by
  intro s r
  refine ⟨⟨_, rfl, rfl, s.advance_pcPast .push, s.advance_setStack_onlyStack _ _⟩, fun st v hst => ?pops,
    fun hst => ⟨_, exec_pop_of_empty hst r, s.advance_pcPast .pop, s.advance_onlyPc _⟩⟩
  case pops =>
    exact ⟨_, exec_pop_of_append hst r, by simp, by simp, pcPast_of_pc_eq (by simp), fun q hq => by simp [hq],
      by simp [SameFlags], fun x => by simp, by simp [SameControl], by simp [SameOutputs]⟩

/-- A full bounded stack takes no `Push`: `StackOverflow` is raised (R254). -/
theorem State.pushThen_of_full (s : State) {d : Nat} (h : s.stack.length = d) (x : Addr) (v : Word)
    (k : State → State) : s.pushThen (some d) x v k = s.raise (.stackOverflow v x) := by
  simp [State.pushThen, State.hasRoom, h]

/-- Below its bound a stack takes a `Push` as an unbounded one does. -/
theorem State.pushThen_of_lt (s : State) {d : Nat} (h : s.stack.length < d) (x : Addr) (v : Word)
    (k : State → State) : s.pushThen (some d) x v k = k (s.push v) := by
  simp [State.pushThen, State.hasRoom, h.ne]

/-- Settles O45: full, `call` and `push` raise; with room, they push as with no bound. -/
theorem boundedStackOverflows : Obligations.BoundedStackOverflows := by
  intro s d addr r
  refine ⟨fun hfull => ⟨?call, ?push⟩, fun hroom => ⟨?callBelow, ?pushBelow⟩⟩
  case call =>
    rw [State.call, (s.advance Mnemonic.call.len).pushThen_of_full hfull]
    exact ⟨rfl, s.advance_pcPast .call, s.advance_raise_onlyStatus _ _⟩
  case push =>
    rw [State.pushReg, withReg_reg, (s.advance Mnemonic.push.len).pushThen_of_full hfull]
    exact ⟨rfl, s.advance_pcPast .push, s.advance_raise_onlyStatus _ _⟩
  case callBelow =>
    rw [State.call, (s.advance Mnemonic.call.len).pushThen_of_lt hroom]
    rfl
  case pushBelow =>
    rw [State.pushReg, withReg_reg, (s.advance Mnemonic.push.len).pushThen_of_lt hroom]
    rfl

/-! ## System instructions -/

/-- Settles O46: each is at most one operation past the instruction. -/
theorem nopWaitAndHaltMoveOn : Obligations.NopWaitAndHaltMoveOn := fun s _ =>
  ⟨⟨_, rfl, s.advance_pcPast .nop, s.advance_onlyPc _⟩,
    ⟨_, rfl, rfl, rfl, s.advance_pcPast .wait, s.advance_delay_onlyOutputs _ _⟩,
    ⟨_, rfl, rfl, s.advance_pcPast .halt, s.advance_halt_onlyStatus _⟩⟩

/-- Settles O47: one event past the instruction. -/
theorem printaAppendsA : Obligations.PrintaAppendsA := fun s =>
  ⟨_, rfl, rfl, rfl, s.advance_pcPast .printa, s.advance_emit_onlyOutputs _ _⟩

/-- `int` with the reset number restores the state past it and halts. -/
theorem exec_int_reset (s : State) :
    exec (.int Params.intReset) s = .next (s.advance Mnemonic.int.len).restore.halt := rfl

/-- Settles O48: the table of effects, row by row. -/
theorem intPrintsWaitsOrResets : Obligations.IntPrintsWaitsOrResets := fun s =>
  ⟨⟨_, rfl, rfl, rfl, s.advance_pcPast .int, s.advance_emit_onlyOutputs _ _⟩,
    ⟨_, rfl, rfl, rfl, s.advance_pcPast .int, s.advance_delay_onlyOutputs _ _⟩,
    ⟨_, exec_int_reset s, rfl, fun r => by simp, rfl, rfl, rfl, rfl, rfl, fun _ => rfl, rfl, rfl⟩⟩

/-- Settles O49: the table of effects, row by row. -/
theorem syscallDispatchesOnA : Obligations.SyscallDispatchesOnA := by
  intro s
  refine ⟨fun ha => ?nop, fun ha => ?wait, fun ha => ?printNum, fun ha => ?printChar, fun ha => ?exit⟩
  case nop =>
    have h : exec .syscall s = .next (s.advance Mnemonic.syscall.len) := by rw [exec, execSyscall, ha]; rfl
    exact ⟨_, h, s.advance_pcPast .syscall, s.advance_onlyPc _⟩
  case wait =>
    have h : exec .syscall s = .next ((s.advance Mnemonic.syscall.len).delay s.b.toNat) := by
      rw [exec, execSyscall, ha]; rfl
    exact ⟨_, h, rfl, rfl, s.advance_pcPast .syscall, s.advance_delay_onlyOutputs _ _⟩
  case printNum =>
    have h : exec .syscall s = .next ((s.advance Mnemonic.syscall.len).emit (.num s.b)) := by
      rw [exec, execSyscall, ha]; rfl
    exact ⟨_, h, rfl, rfl, s.advance_pcPast .syscall, s.advance_emit_onlyOutputs _ _⟩
  case printChar =>
    have h : exec .syscall s = .next ((s.advance Mnemonic.syscall.len).emit (.chr (lo8 s.b))) := by
      rw [exec, execSyscall, ha]; rfl
    exact ⟨_, _, h, rfl, lo8_toNat s.b, rfl, s.advance_pcPast .syscall, s.advance_emit_onlyOutputs _ _⟩
  case exit =>
    exact ⟨_, exec_syscall_of_exit ha, rfl, s.advance_pcPast .syscall, s.advance_halt_onlyStatus _⟩

/-- Settles O51: every letter is checked before anything else, the second after the first. -/
theorem badLetterStopsTheEngine : Obligations.BadLetterStopsTheEngine := by
  intro s k addr imm o r i hi
  have hraise : exec i s = .next ((s.advance i.mnemonic.len).raise (.unknownRegister k s.pc)) := by
    simp only [List.mem_cons, List.not_mem_nil, or_false] at hi
    rcases hi with rfl | rfl | rfl | rfl | rfl | rfl | rfl | rfl | rfl | rfl | rfl <;> rfl
  exact ⟨_, hraise, rfl, s.advance_pcPast _, s.advance_raise_onlyStatus _ _⟩

/-! ## Reset and launch (70_reset) -/

/-- Writing bytes in order: each address ends with the last byte written to it, or as it was. -/
theorem Memory.read_writeAll {m : Memory} (hm : m.wf = true) (l : List (Nat × Byte))
    (h : ∀ p ∈ l, p.1 < Config.memSize) (x : Nat) :
    (m.writeAll l).read x = ((l.reverse.find? (fun p => p.1 == x)).map (·.2)).getD (m.read x) := by
  induction l generalizing m with
  | nil => rfl
  | cons p l ih =>
    obtain ⟨y, v⟩ := p
    have hrest := ih (Memory.wf_write hm v (h (y, v) (by simp))) fun q hq => h q (by simp [hq])
    rw [Memory.writeAll, hrest, Memory.read_write hm, List.reverse_cons, List.find?_append]
    cases l.reverse.find? (fun p => p.1 == x) with
    | some q => rfl
    | none =>
      by_cases hx : y = x
      · simp [hx]
      · simp [hx, Ne.symm hx]

/-- Settles O14: reset memory lists nothing, and both flags are clear. -/
theorem invariantHoldsAtReset : Obligations.InvariantHoldsAtReset := ⟨rfl, by simp [State.reset]⟩

/-- Settles O16, field by field of the external Reset. -/
theorem resetSetsEverythingButMemory : Obligations.ResetSetsEverythingButMemory :=
  ⟨fun s base => ⟨rfl, rfl, s.applyReset_getReg base, rfl, rfl, rfl, rfl, rfl, rfl, fun _ => rfl⟩,
    State.reset_eq_applyReset, fun _ => rfl⟩

/-- Settles O17: the memory is that of the writes in order from zero, the rest that of Reset. -/
theorem launchWritesTheImageAndResets : Obligations.LaunchWritesTheImageAndResets := by
  intro image base himage
  refine ⟨⟨Memory.wf_writeAll rfl image himage, by simp [State.launch]⟩, rfl, rfl, rfl, State.applyReset_getReg _ base,
    rfl, rfl, rfl, rfl, rfl, Memory.read_writeAll rfl image himage⟩

end Sys2Proof.Machine
end

section
/-! PROOFS about the resolver and the table of lengths: what assembles is well-formed, how far the two passes' cursors
drift apart, and the directives (48_symbol_resolver; 30_encoding section 1). -/

namespace Sys2Proof.Machine

/-! ## What a statement assembles to (R105 to R107) -/

/-- A register operand that is accepted is one of the three letters (D26). -/
theorem parseReg_wf {t : Text} {o : RegOperand} (h : parseReg t = .ok o) : o.wf = true := by
  unfold parseReg at h
  split at h <;> cases h <;> rfl

theorem asm0_eq_ok {j i : Instr} {ds : List Diag} {ts : List Text} (h : asm0 j ts = .ok (i, ds)) : i = j := by
  cases ts <;> cases h
  rfl

section
variable {α β γ : Type} {rd1 : Text → Except AsmRefusal α} {rd2 : Text → Except AsmRefusal β}
  {rd3 : Text → Except AsmRefusal γ} {i : Instr} {ds : List Diag} {ts : List Text}

theorem exceptBind_eq_ok {ε δ ζ : Type} {x : Except ε δ} {f : δ → Except ε ζ} {z : ζ} (h : x.bind f = .ok z) :
    ∃ a, x = .ok a ∧ f a = .ok z := by
  cases x with
  | error e => cases h
  | ok a => exact ⟨a, rfl, h⟩

theorem asm1_eq_ok {k : α → Instr} (h : asm1 rd1 k ts = .ok (i, ds)) : ∃ t x, rd1 t = .ok x ∧ i = k x := by
  unfold asm1 at h
  split at h
  · obtain ⟨x, hx, heq⟩ := exceptMap_eq_ok_iff.mp h
    exact ⟨_, x, hx, (Prod.mk.inj heq).1.symm⟩
  · cases h

theorem asm2_eq_ok {k : α → β → Instr} (h : asm2 rd1 rd2 k ts = .ok (i, ds)) :
    ∃ t x u y, rd1 t = .ok x ∧ rd2 u = .ok y ∧ i = k x y := by
  unfold asm2 at h
  split at h
  · obtain ⟨x, hx, h⟩ := exceptBind_eq_ok h
    obtain ⟨y, hy, heq⟩ := exceptMap_eq_ok_iff.mp h
    exact ⟨_, x, _, y, hx, hy, (Prod.mk.inj heq).1.symm⟩
  · cases h

theorem asm3_eq_ok {k : α → β → γ → Instr} (h : asm3 rd1 rd2 rd3 k ts = .ok (i, ds)) :
    ∃ t x y z, rd1 t = .ok x ∧ i = k x y z := by
  unfold asm3 at h
  split at h
  · obtain ⟨x, hx, h⟩ := exceptBind_eq_ok h
    obtain ⟨y, -, h⟩ := exceptBind_eq_ok h
    obtain ⟨z, -, heq⟩ := exceptMap_eq_ok_iff.mp h
    exact ⟨_, x, y, z, hx, (Prod.mk.inj heq).1.symm⟩
  · cases h

theorem asmJump_eq_ok {tab : SymTab} {k : Addr → Instr} (h : asmJump tab k ts = .ok (i, ds)) : ∃ v, i = k v := by
  unfold asmJump at h
  split at h
  · obtain ⟨p, -, heq⟩ := exceptMap_eq_ok_iff.mp h
    exact ⟨p.1, (Prod.mk.inj heq).1.symm⟩
  · cases h

end

/-- What a mnemonic's operand words assemble to, shape by shape. -/
theorem assembleInstr_eq_ok {tab : SymTab} {m : Mnemonic} {ts : List Text} {i : Instr} {ds : List Diag}
    (h : assembleInstr tab m ts = .ok (i, ds)) : i.mnemonic = m ∧ i.wf = true := by
  cases m with
  | nop | halt | add | sub | mul | div | mod | cmp | ret | syscall | printa =>
    obtain rfl := asm0_eq_ok h
    exact ⟨rfl, rfl⟩
  | inc | push | pop =>
    obtain ⟨_, _, hr, rfl⟩ := asm1_eq_ok h
    exact ⟨rfl, parseReg_wf hr⟩
  | lda | ldb | ldc | loadA | storeA | load8A | store8A | wait | int =>
    obtain ⟨_, _, -, rfl⟩ := asm1_eq_ok h
    exact ⟨rfl, rfl⟩
  | movRegReg =>
    obtain ⟨_, _, _, _, hd, hs, rfl⟩ := asm2_eq_ok h
    exact ⟨rfl, by simp [Instr.wf, parseReg_wf hd, parseReg_wf hs]⟩
  | load | store | movMemReg =>
    obtain ⟨_, _, _, _, -, hr, rfl⟩ := asm2_eq_ok h
    exact ⟨rfl, parseReg_wf hr⟩
  | movRegMem | movRegMem2 =>
    obtain ⟨_, _, _, _, hr, -, rfl⟩ := asm2_eq_ok h
    exact ⟨rfl, parseReg_wf hr⟩
  | movMemImm | mov8MemImm =>
    obtain ⟨_, _, _, _, -, -, rfl⟩ := asm2_eq_ok h
    exact ⟨rfl, rfl⟩
  | movRegImm =>
    obtain ⟨_, _, _, _, hr, rfl⟩ := asm3_eq_ok h
    exact ⟨rfl, parseReg_wf hr⟩
  | jmp | jz | jnz | jn | jp | jeq | jgt | jlt | call =>
    obtain ⟨_, rfl⟩ := asmJump_eq_ok h
    exact ⟨rfl, rfl⟩

/-- What a statement assembles to is a well-formed instruction of its mnemonic. -/
theorem assembleStmt_eq_ok {tab : SymTab} {m : Mnemonic} {u : Text} {i : Instr} {ds : List Diag}
    (h : assembleStmt tab m u = .ok (i, ds)) : i.mnemonic = m ∧ i.wf = true := by
  unfold assembleStmt at h
  split at h
  · exact assembleInstr_eq_ok h
  · cases h

/-! ## One line of either pass -/

/-- An emitted instruction moves the cursor by its length, inside the address space (R216, R228). -/
theorem Pass2.emit_cursor {p q : Pass2} {i : Instr} {ds : List Diag} (h : p.emit i ds = .ok q) :
    q.cursor = p.cursor + i.mnemonic.len ∧ q.cursor ≤ Config.memSize := by
  obtain ⟨c, hc, rfl⟩ := exceptMap_eq_ok_iff.mp h
  exact moveCursor_eq_ok hc

/-- An instruction statement that pass 2 accepts is emitted. -/
theorem Pass2.stmt_instr_eq_ok {tab : SymTab} {p q : Pass2} {m : Mnemonic} {u : Text}
    (h : p.stmt tab (.instr m u) = .ok q) : ∃ i ds, i.mnemonic = m ∧ p.emit i ds = .ok q := by
  simp only [Pass2.stmt] at h
  split at h
  · exact ⟨_, _, (assembleStmt_eq_ok ‹_›).1, h⟩
  · cases h

/-- What an accepted label changes, field by field (R219). -/
theorem Pass1.label_fields {p r : Pass1} {name : Text} (h : p.label name = .ok r) :
    p.cursor < Config.memSize ∧ r.cursor = p.cursor ∧ r.diags = p.diags ∧
      r.symtab = p.symtab ++ [(name, BitVec.ofNat 16 p.cursor)] := by
  obtain ⟨hc, rfl⟩ := Pass1.label_eq_ok h
  exact ⟨hc, rfl, rfl, rfl⟩

/-- A statement of pass 1 leaves the symbol table as it is. -/
theorem Pass1.stmt_symtab {size : Mnemonic → Nat} {p q : Pass1} {st : Stmt} (h : p.stmt size st = .ok q) :
    q.symtab = p.symtab := by
  have heq : (p.stmt size st).map (fun u => { u with symtab := p.symtab }) = .ok q :=
    (p.stmt_withSymtab size p.symtab st).symm.trans h
  obtain ⟨_, -, rfl⟩ := exceptMap_eq_ok_iff.mp heq
  rfl

/-- A statement of pass 2 leaves the record of labels reached as it is. -/
theorem Pass2.stmt_reached {tab : SymTab} {p q : Pass2} {st : Stmt} (h : p.stmt tab st = .ok q) :
    q.reached = p.reached := by
  cases st with
  | empty | db | unknown => cases h; rfl
  | org =>
    obtain ⟨_, -, rfl⟩ := exceptMap_eq_ok_iff.mp h
    rfl
  | instr m u =>
    obtain ⟨i, ds, -, hemit⟩ := Pass2.stmt_instr_eq_ok h
    obtain ⟨_, -, rfl⟩ := exceptMap_eq_ok_iff.mp hemit
    rfl

theorem Pass1.lines_cons_eq_ok {size : Mnemonic → Nat} {p q : Pass1} {l : Text} {ls : List Text}
    (h : p.lines size (l :: ls) = .ok q) : ∃ r, p.line size l = .ok r ∧ r.lines size ls = .ok q := by
  unfold Pass1.lines at h
  split at h
  · exact ⟨_, ‹_›, h⟩
  · cases h

theorem Pass2.lines_cons_eq_ok {tab : SymTab} {p q : Pass2} {l : Text} {ls : List Text}
    (h : p.lines tab (l :: ls) = .ok q) : ∃ r, p.line tab l = .ok r ∧ r.lines tab ls = .ok q := by
  unfold Pass2.lines at h
  split at h
  · exact ⟨_, ‹_›, h⟩
  · cases h

/-! ## How far the cursors drift apart (R236) -/

theorem instrSize_of_ne {m : Mnemonic} (h : m ≠ .movRegImm) : instrSize m = m.len := if_neg h

/-- A statement changes the distance of the cursors as `Stmt.drift` says. -/
theorem stmt_drift {p p' : Pass1} {q q' : Pass2} {tab : SymTab} {st : Stmt} {d : Int}
    (hd : (p.cursor : Int) = q.cursor + d) (hp : p.stmt instrSize st = .ok p') (hq : q.stmt tab st = .ok q') :
    (p'.cursor : Int) = q'.cursor + st.drift d := by
  cases st with
  | empty => cases hp; cases hq; exact hd
  | org t =>
    obtain ⟨v, hv, rfl⟩ := exceptMap_eq_ok_iff.mp hp
    obtain ⟨w, hw, rfl⟩ := exceptMap_eq_ok_iff.mp hq
    obtain rfl := Except.ok.inj (hv.symm.trans hw)
    simp [Stmt.drift]
  | db t =>
    obtain ⟨c, hc, rfl⟩ := exceptMap_eq_ok_iff.mp hp
    obtain ⟨rfl, -⟩ := moveCursor_eq_ok hc
    cases hq
    simp only [Stmt.drift, Pass2.skip]
    omega
  | unknown t =>
    obtain ⟨c, hc, rfl⟩ := exceptMap_eq_ok_iff.mp hp
    obtain ⟨rfl, -⟩ := moveCursor_eq_ok hc
    cases hq
    simp only [Stmt.drift, Pass2.skip]
    omega
  | instr m u =>
    obtain ⟨c, hc, rfl⟩ := exceptMap_eq_ok_iff.mp hp
    obtain ⟨rfl, -⟩ := moveCursor_eq_ok hc
    obtain ⟨i, ds, rfl, hemit⟩ := Pass2.stmt_instr_eq_ok hq
    obtain ⟨hcursor, -⟩ := Pass2.emit_cursor hemit
    by_cases hi : i.mnemonic = .movRegImm
    · have hsize : instrSize .movRegImm = 4 := rfl
      have hlen : Mnemonic.movRegImm.len = 6 := rfl
      simp only [Stmt.drift, hcursor, hi, hsize, hlen, if_true]
      omega
    · simp only [Stmt.drift, hcursor, instrSize_of_ne hi, if_neg hi]
      omega

/-- The labels recorded, the places reached and the drifts match: one each, with the drift between them. -/
def LabelsMatch (tab : SymTab) (reached : List (Text × Nat)) (drifts : List (Text × Int)) : Prop :=
  reached.length = tab.length ∧ drifts.length = tab.length ∧
    tab.map (fun p => (p.1, (p.2.toNat : Int))) = List.zipWith (fun q d => (q.1, (q.2 : Int) + d.2)) reached drifts

theorem LabelsMatch.cons {tab : SymTab} {reached : List (Text × Nat)} {drifts : List (Text × Int)}
    (h : LabelsMatch tab reached drifts) {name : Text} {a : Addr} {c : Nat} {d : Int} (ha : (a.toNat : Int) = c + d) :
    LabelsMatch ((name, a) :: tab) ((name, c) :: reached) ((name, d) :: drifts) := by
  obtain ⟨hreached, hdrifts, hmap⟩ := h
  exact ⟨by simp [hreached], by simp [hdrifts], by simp [hmap, ha]⟩

/-- Over the same lines the two passes record matching labels, from any cursors `d` apart. -/
theorem labelsMatch_of_lines {p p' : Pass1} {q q' : Pass2} {tab : SymTab} {ls : List Text} {d : Int}
    (hd : (p.cursor : Int) = q.cursor + d) (hp : p.lines instrSize ls = .ok p') (hq : q.lines tab ls = .ok q') :
    ∃ labels reached, p'.symtab = p.symtab ++ labels ∧ q'.reached = q.reached ++ reached ∧
      LabelsMatch labels reached (labelDrifts d ls) := by
  induction ls generalizing p q d with
  | nil =>
    cases hp
    cases hq
    exact ⟨[], [], by simp, by simp, rfl, rfl, rfl⟩
  | cons l ls ih =>
    obtain ⟨p₁, hp₁, hp⟩ := Pass1.lines_cons_eq_ok hp
    obtain ⟨q₁, hq₁, hq⟩ := Pass2.lines_cons_eq_ok hq
    cases hl : (splitLine l).1 with
    | none =>
      rw [Pass1.line_of_no_label hl] at hp₁
      rw [Pass2.line_of_no_label hl] at hq₁
      obtain ⟨labels, reached, hsym, hreached, hmatch⟩ := ih (stmt_drift hd hp₁ hq₁) hp hq
      rw [Pass1.stmt_symtab hp₁] at hsym
      rw [Pass2.stmt_reached hq₁] at hreached
      exact ⟨labels, reached, hsym, hreached, by simpa [labelDrifts, hl] using hmatch⟩
    | some name =>
      obtain ⟨r, hlabel, hp₁⟩ := Pass1.line_eq_ok_of_label hl hp₁
      obtain ⟨hc, hcursor, -, hlabels⟩ := Pass1.label_fields hlabel
      have ha : ((BitVec.ofNat 16 p.cursor).toNat : Int) = q.cursor + d := by
        rw [← hd, BitVec.toNat_ofNat]
        exact congrArg _ (Nat.mod_eq_of_lt hc)
      rw [Pass2.line, hl] at hq₁
      have hd₁ : (r.cursor : Int) = (q.pastLabel (some name)).cursor + d := by rwa [hcursor, Pass2.pastLabel_cursor]
      obtain ⟨labels, reached, hsym, hreached, hmatch⟩ := ih (stmt_drift hd₁ hp₁ hq₁) hp hq
      rw [Pass1.stmt_symtab hp₁, hlabels] at hsym
      rw [Pass2.stmt_reached hq₁] at hreached
      refine ⟨(name, BitVec.ofNat 16 p.cursor) :: labels, (name, q.cursor) :: reached, by simp [hsym],
        by simp [hreached, Pass2.pastLabel], ?_⟩
      simpa [labelDrifts, hl] using hmatch.cons ha

/-! ## Well-formed source (R237) -/

/-- A statement of pass 1 that leaves no report behind is no unknown token, and there was none before. -/
theorem Pass1.stmt_diags_eq_nil {size : Mnemonic → Nat} {p q : Pass1} {st : Stmt} (h : p.stmt size st = .ok q)
    (hq : q.diags = []) : p.diags = [] ∧ ∀ t, st ≠ .unknown t := by
  cases st with
  | empty =>
    cases h
    exact ⟨hq, by simp⟩
  | org | db | instr =>
    obtain ⟨_, -, rfl⟩ := exceptMap_eq_ok_iff.mp h
    exact ⟨hq, by simp⟩
  | unknown =>
    obtain ⟨_, -, rfl⟩ := exceptMap_eq_ok_iff.mp h
    simp at hq

/-- A line of pass 1 that leaves no report behind holds no unknown token, and there was none before. -/
theorem Pass1.line_diags_eq_nil {size : Mnemonic → Nat} {p q : Pass1} {l : Text} (h : p.line size l = .ok q)
    (hq : q.diags = []) : p.diags = [] ∧ ∀ t, lineStmt l ≠ .unknown t := by
  cases hl : (splitLine l).1 with
  | none =>
    rw [Pass1.line_of_no_label hl] at h
    exact Pass1.stmt_diags_eq_nil h hq
  | some name =>
    obtain ⟨r, hlabel, hstmt⟩ := Pass1.line_eq_ok_of_label hl h
    obtain ⟨-, -, hdiags, -⟩ := Pass1.label_fields hlabel
    rw [← hdiags]
    exact Pass1.stmt_diags_eq_nil hstmt hq

/-- Lines of which pass 1 reports nothing hold no unknown token. -/
theorem Pass1.lines_diags_eq_nil {size : Mnemonic → Nat} {p q : Pass1} {ls : List Text} (h : p.lines size ls = .ok q)
    (hq : q.diags = []) : p.diags = [] ∧ ∀ l ∈ ls, ∀ t, lineStmt l ≠ .unknown t := by
  induction ls generalizing p with
  | nil =>
    cases h
    exact ⟨hq, by simp⟩
  | cons l ls ih =>
    obtain ⟨r, hr, h⟩ := Pass1.lines_cons_eq_ok h
    obtain ⟨hdiags, hls⟩ := ih h
    obtain ⟨hp, hl⟩ := Pass1.line_diags_eq_nil hr hdiags
    exact ⟨hp, List.forall_mem_cons.mpr ⟨hl, hls⟩⟩

/-- A statement that is no cause of drift keeps the cursors together. -/
theorem Stmt.drift_zero {st : Stmt} (h : st.drifts = false) (hknown : ∀ t, st ≠ .unknown t) : st.drift 0 = 0 := by
  cases st with
  | empty | org => rfl
  | db => cases h
  | instr m u =>
    have hm : m ≠ .movRegImm := by simpa [Stmt.drifts] using h
    simp [Stmt.drift, hm]
  | unknown t => exact absurd rfl (hknown t)

/-- Where no line drifts, no label does. -/
theorem labelDrifts_zero {ls : List Text} (h : ∀ l ∈ ls, (lineStmt l).drift 0 = 0) :
    ∀ e ∈ labelDrifts 0 ls, e.2 = 0 := by
  induction ls with
  | nil => simp [labelDrifts]
  | cons l ls ih =>
    obtain ⟨hl, hls⟩ := List.forall_mem_cons.mp h
    cases hlabel : (splitLine l).1 <;> simpa [labelDrifts, hlabel, hl] using ih hls

/-- Labels without drift lie where pass 2 stands at them. -/
theorem LabelsMatch.eq_of_zero {tab : SymTab} {reached : List (Text × Nat)} {drifts : List (Text × Int)}
    (h : LabelsMatch tab reached drifts) (hzero : ∀ e ∈ drifts, e.2 = 0) :
    tab.map (fun p => (p.1, p.2.toNat)) = reached := by
  obtain ⟨hreached, hdrifts, hmap⟩ := h
  have hplain : List.zipWith (fun q d => (q.1, (q.2 : Int) + d.2)) reached drifts =
      reached.map (fun q => (q.1, (q.2 : Int))) :=
    List.ext_getElem (by simp [hreached, hdrifts]) fun n _ _ => by simp [hzero _ (List.getElem_mem _)]
  have hinj : Function.Injective (fun q : Text × Nat => (q.1, (q.2 : Int))) := fun x y h => by
    simpa [Prod.ext_iff] using h
  apply List.map_injective_iff.mpr hinj
  rw [← hplain, ← hmap, List.map_map]
  rfl

/-- The bytes placed from an address on lie below its end. -/
theorem mem_placeBytes_lt {x : Nat} {l : List Byte} {e : Nat × Byte} (h : e ∈ placeBytes x l) : e.1 < x + l.length := by
  induction l generalizing x with
  | nil => cases h
  | cons v l ih =>
    rcases List.mem_cons.mp h with rfl | h
    · simp
    · have := ih h
      simp only [List.length_cons]
      omega

/-- Pass 2 writes at existing addresses only. -/
theorem Pass2.line_image_lt {tab : SymTab} {p q : Pass2} {l : Text} (h : p.line tab l = .ok q)
    (hp : ∀ e ∈ p.image, e.1 < 65536) : ∀ e ∈ q.image, e.1 < 65536 := by
  rw [← p.pastLabel_image (splitLine l).1] at hp
  unfold Pass2.line at h
  cases hst : lineStmt l with
  | empty | db | unknown =>
    rw [hst] at h
    cases h
    exact hp
  | org t =>
    rw [hst] at h
    obtain ⟨_, -, rfl⟩ := exceptMap_eq_ok_iff.mp h
    exact hp
  | instr m u =>
    rw [hst] at h
    obtain ⟨i, ds, -, hemit⟩ := Pass2.stmt_instr_eq_ok h
    obtain ⟨hcursor, hle⟩ := Pass2.emit_cursor hemit
    intro e he
    rw [Pass2.emit_eq_ok hemit, List.mem_append] at he
    rcases he with he | he
    · exact hp e he
    · have hlt := mem_placeBytes_lt he
      rw [length_encode, ← hcursor] at hlt
      exact hlt.trans_le hle

theorem Pass2.lines_image_lt {tab : SymTab} {p q : Pass2} {ls : List Text} (h : p.lines tab ls = .ok q)
    (hp : ∀ e ∈ p.image, e.1 < 65536) : ∀ e ∈ q.image, e.1 < 65536 := by
  induction ls generalizing p with
  | nil =>
    cases h
    exact hp
  | cons l ls ih =>
    obtain ⟨r, hr, h⟩ := Pass2.lines_cons_eq_ok h
    exact ih h (Pass2.line_image_lt hr hp)

/-! ## Directives (R220, R221) -/

/-- White space before `.org`'s operand is skipped. -/
theorem orgOperand_cons {c : Char} (hc : isSpace c = true) (t : Text) : orgOperand (c :: t) = parseHexWord (trim t) := by
  simp [orgOperand, trim, hc]

/-! ## The obligations -/

/-- Settles O7: the tables, the encoder, pass 2's cursor and bytes, and the engine's `pc`. -/
theorem encodedLengthIsLen : Obligations.EncodedLengthIsLen := by
  refine ⟨by decide, by decide, by decide, by decide, rfl, rfl, length_encode, fun p q i ds h => ?pass2,
    fun i s t h => ⟨?past, fun addr hi hne => ?notTaken⟩, fun m => instrSize_of_ne, by decide⟩
  case pass2 => exact ⟨(Pass2.emit_cursor h).1, by rw [Pass2.emit_eq_ok h, placeBytes_eq_zipIdx]⟩
  case past =>
    rintro (hi | ⟨rfl, hst⟩)
    · exact pcPast_of_exec h hi
    · obtain rfl := Host.Outcome.next.inj ((exec_ret_of_empty hst).symm.trans h)
      exact s.advance_pcPast .ret
  case notTaken => exact (pc_of_conditionalJump hi h).resolve_right hne

/-- Settles O54: the cursor moves where the bytes fit the address space; pass 2 only reports. -/
theorem unknownMnemonicIsAWarning : Obligations.UnknownMnemonicIsAWarning := fun size p t =>
  ⟨fun m u h => by simp [Pass1.stmt, moveCursor_of_le h, Except.map],
    fun h => by simp [Pass1.stmt, moveCursor_of_le h, Except.map], fun _ _ => rfl⟩

/-- Settles O57: each shape of operands gives a well-formed instruction, and those decode back. -/
theorem assembledStatementIsWellFormed : Obligations.AssembledStatementIsWellFormed := by
  intro tab m operands i ds h
  obtain ⟨hm, hwf⟩ := assembleStmt_eq_ok h
  exact ⟨hm, hwf, fun rest => decodeOfEncodeIsTheInstruction i rest hwf⟩

/-- The labels of a source that assembles match. -/
theorem labelsMatch_of_assemble {origin : Addr} {ls : List Text} {r : Assembly} (h : assemble origin ls = .ok r) :
    LabelsMatch r.symtab r.reached (labelDrifts 0 ls) := by
  obtain ⟨p, q, hp, hq, rfl⟩ := assemble_eq_ok_iff.mp h
  have hstart : ((Pass1.start origin).cursor : Int) = (Pass2.start origin).cursor + 0 := (Int.add_zero _).symm
  obtain ⟨labels, reached, hsym, hreached, hmatch⟩ := labelsMatch_of_lines hstart hp hq
  rw [hsym, hreached]
  exact hmatch

/-- Settles O58: both passes start at the origin, and every line moves them apart by its drift. -/
theorem labelDriftIsTheSumOfItsCauses : Obligations.LabelDriftIsTheSumOfItsCauses :=
  fun _ _ _ h => labelsMatch_of_assemble h

/-- Settles O59: no line of well-formed source is a cause of drift. -/
theorem labelsOfWellFormedSourceAreTrue : Obligations.LabelsOfWellFormedSourceAreTrue := by
  intro origin ls h
  unfold wellFormedSource at h
  split at h
  case h_2 => cases h
  case h_1 r hr =>
    simp only [Bool.and_eq_true, decide_eq_true_eq, List.all_eq_true, Bool.not_eq_true'] at h
    obtain ⟨hdiags, hdrifts⟩ := h
    obtain ⟨p, q, hp, hq, hrEq⟩ := assemble_eq_ok_iff.mp hr
    have hpdiags : p.diags = [] := (List.append_eq_nil_iff.mp (hrEq ▸ hdiags)).1
    obtain ⟨-, hknown⟩ := Pass1.lines_diags_eq_nil hp hpdiags
    have hzero := labelDrifts_zero fun l hl => Stmt.drift_zero (hdrifts l hl) (hknown l hl)
    have himage := Pass2.lines_image_lt hq (by simp [Pass2.start])
    exact ⟨r, hr, (labelsMatch_of_assemble hr).eq_of_zero hzero, hrEq ▸ himage⟩

/-- Settles O60: the operand of `.org`, the count of `.db`, and the example lines. -/
theorem directivesMoveTheCursor : Obligations.DirectivesMoveTheCursor := by
  refine ⟨fun size tab p q t v hv c hc => ?org, fun size tab p q t => ⟨fun h => ?db, rfl⟩, by decide, by decide,
    by decide, by decide, by decide, by decide, by decide, by decide⟩
  case org =>
    have hoperand : orgOperand (c :: t) = .ok v := (orgOperand_cons hc t).trans hv
    simp [Pass1.stmt, Pass2.stmt, hoperand, Except.map]
  case db => simp [Pass1.stmt, moveCursor_of_le h, Except.map]

end Sys2Proof.Machine
end
